-- ==== Sys2Proof/Word.lean ====
section
/-! DEFINITION. The word types of the core (00_scope.md R6, R8; 10_state.md R20, R30). -/

namespace Sys2Proof

/-- A data word: `W` = 32 bits. Registers, data-memory cells, stack cells and the program counter are words (R6, R20, R23, R37, R41). -/
abbrev Word := BitVec 32

/-- An instruction word: `IW` = 32 bits, so that it fits one stack word (R7, R30, R100). -/
abbrev InstrWord := BitVec 32

/-- A general register number, 0 to 31 (R20). -/
abbrev Reg := Fin 32

/-- An I/O port, which is also an interrupt source, 0 to 2 (R6, R12). -/
abbrev Port := Fin 3

end Sys2Proof
end

