-- ==== Sys2Proof/Config.lean ====
section
/-! DEFINITION. The implementation parameters of 00_scope.md R6, at the spec's default values
(DESIGN CHOICE, assumption log 2: the spec leaves each a parameter with this default). -/

namespace Sys2Proof.Config

/-- `W`, width of a data word (D1). -/
@[simp] abbrev wordBits : Nat := 32
/-- `IW`, width of an instruction word (D2). -/
@[simp] abbrev instrBits : Nat := 32
/-- `OPC_BITS` (D2). -/
@[simp] abbrev opcBits : Nat := 8
/-- `OP1_BITS` (D2). -/
@[simp] abbrev op1Bits : Nat := 8
/-- `OP2_BITS` (D2). -/
@[simp] abbrev op2Bits : Nat := 16
/-- `NREGS` (D5). -/
@[simp] abbrev numRegs : Nat := 32
/-- `REG_BITS` (D5). -/
@[simp] abbrev regBits : Nat := 5
/-- `PCW`, width of the program counter (D6). -/
@[simp] abbrev pcBits : Nat := 32
/-- `PM_SIZE`, instruction words in program memory (D7). -/
@[simp] abbrev pmSize : Nat := 256
/-- `NOP_WORD`, what a fetch beyond program memory reads (D7). -/
@[simp] def nopWord : InstrWord := 0x00000000#32
/-- `DM_SIZE`, cells in data memory (D8). -/
@[simp] abbrev dmSize : Nat := 512
/-- `IO_SIZE`, size of the low I/O sub-range (D8). -/
@[simp] abbrev ioSize : Nat := 256
/-- `DATA_BASE`, what STS and LDS add to their address operand (D8). -/
@[simp] abbrev dataBase : Nat := 256
/-- `NPORTS`, I/O ports and interrupt sources (D9). -/
@[simp] abbrev numPorts : Nat := 3
/-- `STACK_DEPTH`, cells in the stack (D11). -/
@[simp] abbrev stackDepth : Nat := 1024
/-- `RESET_VEC`, the program counter after reset (R301). -/
@[simp] def resetVec : Word := 0x00000000#32
/-- `CTX_WORDS`, words one interrupt dispatch pushes (R270, R271). -/
@[simp] abbrev ctxWords : Nat := 7 + numPorts + numRegs

end Sys2Proof.Config
end

