-- ==== Sys2Proof/Syntax.lean ====
section
/-! DEFINITION. The 38 instructions, one constructor per row of spec/opcode_table.json, each carrying
only the fields its operand form uses (30_encoding.md R105, R106, R109). -/

namespace Sys2Proof

/-- An instruction. Forms (R105): N no operand; R one register; RI register and 16-bit immediate;
RR two registers; AR 8-bit data address and source register; RA register and 16-bit data address;
T 8-bit program address. -/
inductive Instr where
  /-- 0x00, form N (R170). -/
  | nop
  /-- 0x01, form RI (R171). -/
  | ldi (rd : Reg) (imm : BitVec 16)
  /-- 0x02, form RR (R172). -/
  | mov (rd rs : Reg)
  /-- 0x03, form AR (R173). -/
  | out (addr : BitVec 8) (rs : Reg)
  /-- 0x04, form RA (R174). -/
  | in_ (rd : Reg) (addr : BitVec 16)
  /-- 0x05, form AR (R175). -/
  | sts (addr : BitVec 8) (rs : Reg)
  /-- 0x06, form RA (R176). -/
  | lds (rd : Reg) (addr : BitVec 16)
  /-- 0x07, form R (R177). -/
  | clr (rd : Reg)
  /-- 0x08, form RI (R191). -/
  | ori (rd : Reg) (imm : BitVec 16)
  /-- 0x09, form RI (R192). -/
  | andi (rd : Reg) (imm : BitVec 16)
  /-- 0x0A, form RI (R193). -/
  | xori (rd : Reg) (imm : BitVec 16)
  /-- 0x0B, form RR (R194). -/
  | orr (rd rs : Reg)
  /-- 0x0C, form RR (R195). -/
  | andr (rd rs : Reg)
  /-- 0x0D, form RR (R196). -/
  | xorr (rd rs : Reg)
  /-- 0x0E, form RI (R197). -/
  | addi (rd : Reg) (imm : BitVec 16)
  /-- 0x0F, form RI (R198). -/
  | subi (rd : Reg) (imm : BitVec 16)
  /-- 0x10, form RR (R199). -/
  | add (rd rs : Reg)
  /-- 0x11, form RR (R200). -/
  | sub (rd rs : Reg)
  /-- 0x12, form R (R201). -/
  | inc (rd : Reg)
  /-- 0x13, form R (R202). -/
  | dec (rd : Reg)
  /-- 0x14, form RI (R203). -/
  | cpi (rd : Reg) (imm : BitVec 16)
  /-- 0x15, form RR (R204). -/
  | cp (rd rs : Reg)
  /-- 0x16, form T (R221). -/
  | jmp (target : BitVec 8)
  /-- 0x17, form T (R222). -/
  | breq (target : BitVec 8)
  /-- 0x18, form T (R223). -/
  | brne (target : BitVec 8)
  /-- 0x19, form T (R224). -/
  | brge (target : BitVec 8)
  /-- 0x1A, form T (R225). -/
  | brgt (target : BitVec 8)
  /-- 0x1B, form T (R226). -/
  | brle (target : BitVec 8)
  /-- 0x1C, form T (R227). -/
  | brlt (target : BitVec 8)
  /-- 0x1D, form T (R228). -/
  | call (target : BitVec 8)
  /-- 0x1E, form N (R229). -/
  | ret
  /-- 0x1F, form N (R242). -/
  | reti
  /-- 0x20, form R (R240). -/
  | push (rs : Reg)
  /-- 0x21, form R (R241). -/
  | pop (rd : Reg)
  /-- 0x22, form R (R205). -/
  | lsl (rd : Reg)
  /-- 0x23, form R (R206). -/
  | lsr (rd : Reg)
  /-- 0x24, form N (R243). -/
  | sei
  /-- 0x25, form N (R244). -/
  | cli
  deriving DecidableEq, Repr

end Sys2Proof
end

