-- ==== Sys2Proof/WellFormed.lean ====
section
/-! DEFINITION. Well-formed instruction words and programs (30_encoding.md R112). Well-formedness is a
property of WORDS: a term of `Instr` cannot hold an out-of-range field, so each is well-formed as it stands. -/

namespace Sys2Proof

/-- The seven operand forms of R105. -/
inductive Form where
  | N | R | RI | RR | AR | RA | T
  deriving DecidableEq, Repr

/-- The operand form of a recognised opcode, none for an unrecognised one (R105, R106, R107). -/
def formOf (opc : BitVec 8) : Option Form :=
  match opc.toNat with
  | 0x00 | 0x1E | 0x1F | 0x24 | 0x25 => some .N
  | 0x07 | 0x12 | 0x13 | 0x20 | 0x21 | 0x22 | 0x23 => some .R
  | 0x01 | 0x08 | 0x09 | 0x0A | 0x0E | 0x0F | 0x14 => some .RI
  | 0x02 | 0x0B | 0x0C | 0x0D | 0x10 | 0x11 | 0x15 => some .RR
  | 0x03 | 0x05 => some .AR
  | 0x04 | 0x06 => some .RA
  | 0x16 | 0x17 | 0x18 | 0x19 | 0x1A | 0x1B | 0x1C | 0x1D => some .T
  | _ => none

/-- Check 1 of R112: the opcode is recognised, 0x00 to 0x25. -/
def opcodeRecognised (w : InstrWord) : Bool :=
  (w.extractLsb' 24 8).toNat ≤ 0x25

/-- Check 2 of R112: every field the form ignores is zero. -/
def ignoredFieldsZero (w : InstrWord) : Bool :=
  match formOf (w.extractLsb' 24 8) with
  | some .N => w.extractLsb' 16 8 == 0 && w.extractLsb' 0 16 == 0
  | some .R | some .T => w.extractLsb' 0 16 == 0
  | _ => true

/-- Check 3 of R112: every register field is below `NREGS`. -/
def registerFieldsInRange (w : InstrWord) : Bool :=
  match formOf (w.extractLsb' 24 8) with
  | some .R | some .RI | some .RA => (w.extractLsb' 16 8).toNat < Config.numRegs
  | some .RR => (w.extractLsb' 16 8).toNat < Config.numRegs && (w.extractLsb' 0 16).toNat < Config.numRegs
  | some .AR => (w.extractLsb' 0 16).toNat < Config.numRegs
  | _ => true

/-- A well-formed instruction word (R112). -/
def wordWellFormed (w : InstrWord) : Bool :=
  opcodeRecognised w && ignoredFieldsZero w && registerFieldsInRange w

/-- A well-formed program: every word of it is (R112). -/
def programWellFormed (ws : List InstrWord) : Bool :=
  ws.all wordWellFormed

end Sys2Proof
end

