-- ==== Sys2Proof/Decode.lean ====
section
/-! DEFINITION. The decoder, total on all 2^32 words and rejecting by name (30_encoding.md R101 to R109),
and after it the encoder, written from the same tables. -/

namespace Sys2Proof

/-- Why a word is no instruction (R107). The decoder raises it; executing such a word resets the machine,
which the model does as the spec says (R260), so the rejection is safe. -/
inductive DecodeError where
  /-- The opcode is 0x26 to 0xFF; it carries the opcode for a fault log only (R260). -/
  | unrecognisedOpcode (opc : BitVec 8)
  deriving DecidableEq, Repr

/-- The opcode field `w[31:24]` (R101). -/
def opcField (w : InstrWord) : BitVec 8 := w.extractLsb' 24 8
/-- The op1 field `w[23:16]` (R101). -/
def op1Field (w : InstrWord) : BitVec 8 := w.extractLsb' 16 8
/-- The op2 field `w[15:0]` (R101). -/
def op2Field (w : InstrWord) : BitVec 16 := w.extractLsb' 0 16

/-- `reg(f) = f[4:0]`: only the low five bits of a field select a register (R103). -/
def reg {n : Nat} (f : BitVec n) : Reg := (f.extractLsb' 0 5).toFin

/-- The instruction that the three fields name (R105, R106); a field its form does not use is ignored. -/
def decodeFields (opc : BitVec 8) (op1 : BitVec 8) (op2 : BitVec 16) : Except DecodeError Instr :=
  match opc.toNat with
  | 0x00 => .ok .nop
  | 0x01 => .ok (.ldi (reg op1) op2)
  | 0x02 => .ok (.mov (reg op1) (reg op2))
  | 0x03 => .ok (.out op1 (reg op2))
  | 0x04 => .ok (.in_ (reg op1) op2)
  | 0x05 => .ok (.sts op1 (reg op2))
  | 0x06 => .ok (.lds (reg op1) op2)
  | 0x07 => .ok (.clr (reg op1))
  | 0x08 => .ok (.ori (reg op1) op2)
  | 0x09 => .ok (.andi (reg op1) op2)
  | 0x0A => .ok (.xori (reg op1) op2)
  | 0x0B => .ok (.orr (reg op1) (reg op2))
  | 0x0C => .ok (.andr (reg op1) (reg op2))
  | 0x0D => .ok (.xorr (reg op1) (reg op2))
  | 0x0E => .ok (.addi (reg op1) op2)
  | 0x0F => .ok (.subi (reg op1) op2)
  | 0x10 => .ok (.add (reg op1) (reg op2))
  | 0x11 => .ok (.sub (reg op1) (reg op2))
  | 0x12 => .ok (.inc (reg op1))
  | 0x13 => .ok (.dec (reg op1))
  | 0x14 => .ok (.cpi (reg op1) op2)
  | 0x15 => .ok (.cp (reg op1) (reg op2))
  | 0x16 => .ok (.jmp op1)
  | 0x17 => .ok (.breq op1)
  | 0x18 => .ok (.brne op1)
  | 0x19 => .ok (.brge op1)
  | 0x1A => .ok (.brgt op1)
  | 0x1B => .ok (.brle op1)
  | 0x1C => .ok (.brlt op1)
  | 0x1D => .ok (.call op1)
  | 0x1E => .ok .ret
  | 0x1F => .ok .reti
  | 0x20 => .ok (.push (reg op1))
  | 0x21 => .ok (.pop (reg op1))
  | 0x22 => .ok (.lsl (reg op1))
  | 0x23 => .ok (.lsr (reg op1))
  | 0x24 => .ok .sei
  | 0x25 => .ok .cli
  | _ => .error (.unrecognisedOpcode opc)

/-- `decode`: the same bit ranges for every word (R101, R102, R109). -/
def decode (w : InstrWord) : Except DecodeError Instr :=
  decodeFields (opcField w) (op1Field w) (op2Field w)

/-- What the decoder reads from the table's numbering of an instruction's bits. One instruction is one
32-bit word, bit 0 least significant, and the machine has no byte order (R9, R67, R100), so the number is the
word (DEDUCED, assumption log 22). -/
def decodeTableWord (nbits w : Nat) : Option Instr :=
  match decode (BitVec.ofNat 32 (w % 2 ^ nbits)) with
  | .ok i => some i
  | .error _ => none

/-! ## The encoder -/

/-- `w = opcode * 2^24 + op1 * 2^16 + op2` (R101). -/
def packFields (opc : BitVec 8) (op1 : BitVec 8) (op2 : BitVec 16) : InstrWord :=
  opc ++ op1 ++ op2

/-- A register number written into a field, the upper bits zero (R110, R112). -/
def regField (n : Nat) (r : Reg) : BitVec n := BitVec.ofNat n r.val

/-- Form N: both operand fields zero (R105). -/
def encodeN (opc : BitVec 8) : InstrWord := packFields opc 0 0
/-- Form R (R105). -/
def encodeR (opc : BitVec 8) (r : Reg) : InstrWord := packFields opc (regField 8 r) 0
/-- Form RI (R105). -/
def encodeRI (opc : BitVec 8) (r : Reg) (imm : BitVec 16) : InstrWord := packFields opc (regField 8 r) imm
/-- Form RR (R105). -/
def encodeRR (opc : BitVec 8) (d s : Reg) : InstrWord := packFields opc (regField 8 d) (regField 16 s)
/-- Form AR (R105). -/
def encodeAR (opc : BitVec 8) (a : BitVec 8) (s : Reg) : InstrWord := packFields opc a (regField 16 s)
/-- Form RA (R105). -/
def encodeRA (opc : BitVec 8) (d : Reg) (a : BitVec 16) : InstrWord := packFields opc (regField 8 d) a
/-- Form T (R105). -/
def encodeT (opc : BitVec 8) (t : BitVec 8) : InstrWord := packFields opc t 0

/-- The canonical word of an instruction: the opcode of R106, ignored fields zero. -/
def encode : Instr → InstrWord
  | .nop => encodeN 0x00
  | .ldi d k => encodeRI 0x01 d k
  | .mov d s => encodeRR 0x02 d s
  | .out a s => encodeAR 0x03 a s
  | .in_ d a => encodeRA 0x04 d a
  | .sts a s => encodeAR 0x05 a s
  | .lds d a => encodeRA 0x06 d a
  | .clr d => encodeR 0x07 d
  | .ori d k => encodeRI 0x08 d k
  | .andi d k => encodeRI 0x09 d k
  | .xori d k => encodeRI 0x0A d k
  | .orr d s => encodeRR 0x0B d s
  | .andr d s => encodeRR 0x0C d s
  | .xorr d s => encodeRR 0x0D d s
  | .addi d k => encodeRI 0x0E d k
  | .subi d k => encodeRI 0x0F d k
  | .add d s => encodeRR 0x10 d s
  | .sub d s => encodeRR 0x11 d s
  | .inc d => encodeR 0x12 d
  | .dec d => encodeR 0x13 d
  | .cpi d k => encodeRI 0x14 d k
  | .cp d s => encodeRR 0x15 d s
  | .jmp t => encodeT 0x16 t
  | .breq t => encodeT 0x17 t
  | .brne t => encodeT 0x18 t
  | .brge t => encodeT 0x19 t
  | .brgt t => encodeT 0x1A t
  | .brle t => encodeT 0x1B t
  | .brlt t => encodeT 0x1C t
  | .call t => encodeT 0x1D t
  | .ret => encodeN 0x1E
  | .reti => encodeN 0x1F
  | .push s => encodeR 0x20 s
  | .pop d => encodeR 0x21 d
  | .lsl d => encodeR 0x22 d
  | .lsr d => encodeR 0x23 d
  | .sei => encodeN 0x24
  | .cli => encodeN 0x25

end Sys2Proof
end

