-- ==== Sys2Proof/Machine/AddressMap.lean ====
section
/-! DEFINITION. The address map: the memory-mapped registers of 20_memory.md R71 and the vectors of R73. -/

namespace Sys2Proof.Machine

/-- `DDRn = 3n` (R71). -/
def ddrAddr (n : Port) : Nat := 3 * n.val
/-- `PORTn = 3n + 1` (R71). -/
def portAddr (n : Port) : Nat := 3 * n.val + 1
/-- `PINn = 3n + 2` (R71). -/
def pinAddr (n : Port) : Nat := 3 * n.val + 2
/-- `ICR = 3 * NPORTS` (R71). -/
def icrAddr : Nat := 3 * Config.numPorts
/-- `IFR = 3 * NPORTS + 1` (R71). -/
def ifrAddr : Nat := 3 * Config.numPorts + 1
/-- `IMSKn = 3 * NPORTS + 2 + n` (R71). -/
def imskAddr (n : Port) : Nat := 3 * Config.numPorts + 2 + n.val
/-- `TOGGLE_ADDR`, the address of PIN0 (R70, R173). -/
def toggleAddr : Nat := pinAddr 0
/-- `IVEC(n) = 2 + 2n`, where source n's handler starts (R73). -/
def ivec (n : Port) : Word := BitVec.ofNat 32 (2 + 2 * n.val)

end Sys2Proof.Machine
end

