-- ==== Sys2Proof/Machine/Operands.lean ====
section
/-! DEFINITION. What each operand form hands to an instruction's operation (30_encoding.md R103 to R105). The
register operand itself, `reg(f)`, stands in Decode.lean. -/

namespace Sys2Proof.Machine

/-- `imm = resize_W(OP2)`: the 16-bit field zero-extended to a word, never sign-extended (R104). -/
def immOperand (op2 : BitVec 16) : Word := op2.setWidth 32

/-- `t = zext_PCW(OP1)`: an absolute program address, 0 to 255 (R105, R220). -/
def targetOperand (op1 : BitVec 8) : Word := op1.setWidth 32

/-- OUT's data address, op1 itself, 0 to 255: the I/O sub-range (R72, R173). -/
def outAddr (op1 : BitVec 8) : Nat := op1.toNat

/-- IN's data address, op2 itself, 0 to 65535 (R72, R174). -/
def inAddr (op2 : BitVec 16) : Nat := op2.toNat

/-- STS's data address, `DATA_BASE + OP1`, 256 to 511 (R72, R175). -/
def stsAddr (op1 : BitVec 8) : Nat := Config.dataBase + op1.toNat

/-- LDS's data address, `DATA_BASE + OP2`, 256 to 65791 (R72, R176). -/
def ldsAddr (op2 : BitVec 16) : Nat := Config.dataBase + op2.toNat

end Sys2Proof.Machine
end

