-- ==== Sys2Proof/Machine/State.lean ====
section
/-! DEFINITION. The state of the core as plain data: every piece of state 10_state.md gives the machine
(R20 to R42), the three memories behind their contracts, and the host's input stream (41_control_cycle.md R150). -/

namespace Sys2Proof.Machine

/-- The execution state `STATE` (R32); the value 3 is unrepresentable (R151). -/
inductive ExecState where
  | fetch | decode | execute
  deriving DecidableEq, Repr

/-- A memory of 32-bit cells as a list of (address, cell) pairs in one canonical form: addresses strictly
rising, no entry equal to what an unlisted address reads as, which is 0: the reset value of every data-memory
and stack cell (R44), and NOP_WORD, what a program word that no program covers holds (R62).
The unit is the whole cell, not the byte (R63, R67; assumption log 1, 13). -/
abbrev Memory := List (Nat × Word)

/-- The entries lie at rising addresses from `lo` on, below `size`, and none is 0. -/
def Memory.wfFrom (size : Nat) : Nat → Memory → Bool
  | _, [] => true
  | lo, (a, v) :: m => decide (lo ≤ a) && decide (a < size) && (v != 0#32) && Memory.wfFrom size (a + 1) m

/-- The canonical form of a memory of `size` cells. -/
def Memory.wf (size : Nat) (m : Memory) : Bool := Memory.wfFrom size 0 m

/-- The stack: cells 0 to 1023 and a pointer 0 to 1024, 1024 the empty and 0 the full sentinel (R41). -/
structure Stack where
  /-- The cells `STK`, dead ones included (R78). -/
  cells : Memory
  /-- The pointer `SP`, 0 to STACK_DEPTH inclusive. -/
  sp : Fin (Config.stackDepth + 1)
  deriving DecidableEq, Repr

/-- What the host presents at one clock edge (R150, R161, R162). -/
structure HostInput where
  /-- `rst` asserted at this edge. -/
  rst : Bool
  /-- `pin_in[0..2]` at this edge. -/
  pins : Vector Word 3
  deriving DecidableEq, Repr

/-- The whole machine. -/
structure State where
  /-- General registers R0 to R31 (R20). -/
  regs : Vector Word 32
  /-- Program counter, in instruction words (R23). -/
  pc : Word
  /-- Status register, bits 5 to 0 = I S N Z V C (R26). -/
  sr : BitVec 6
  /-- Instruction register (R30). -/
  ir : InstrWord
  /-- Operand latch OPC (R31). -/
  opc : BitVec 8
  /-- Operand latch OP1 (R31). -/
  op1 : BitVec 8
  /-- Operand latch OP2 (R31). -/
  op2 : BitVec 16
  /-- Execution state STATE (R32). -/
  execState : ExecState
  /-- Edge-detection history PREV (R33). -/
  prev : Vector Word 3
  /-- Diagnostic fetch address LFA (R34). -/
  lfa : Word
  /-- Program memory PM, 256 words (R36). -/
  pm : Memory
  /-- Data memory DM, 512 cells, the memory-mapped registers among them (R37 to R40). -/
  dm : Memory
  /-- The hardware stack (R41). -/
  stack : Stack
  /-- The MODEL's own field: the levels at the input pins as the host last presented them (R150; log 4). -/
  pinIn : Vector Word 3
  /-- The MODEL's own field: what the host presents at the coming clock edges, the next one first (R150, R161; log 4). -/
  inputs : List HostInput
  deriving DecidableEq, Repr

/-- Reasons a step can stop with a fault. There are none: the only fatal condition of this machine is the
decode error, and its effect is a reset, which the model takes as a next state (R260, R261; log 14, 15). So no
operation raises a fault, and that is safe: the spec gives every case a defined result (R156, R261). -/
inductive Fault where
  deriving DecidableEq, Repr

/-- Reasons a step can be refused. -/
inductive Refusal where
  /-- An instruction whose meaning is not written yet; raised by no arm of `exec` as it stands. Safe: the run stops. -/
  | notModelled (mnemonic : String)
  deriving DecidableEq, Repr

/-- What one step, tick or instruction answers. -/
abbrev Result := Host.Outcome State Fault Refusal

/-- The empty stack, every cell zero (R79). -/
def Stack.empty : Stack := { cells := [], sp := Fin.last Config.stackDepth }

/-- The machine right after reset, every field at the value of 10_state.md R44. No program is loaded
(R62: uncovered words hold NOP_WORD; log 9). `pinIn` and `inputs` are not the machine's: no level and no input
presented yet (DESIGN CHOICE, log 5). -/
def State.reset : State where
  regs := Vector.replicate 32 0
  pc := Config.resetVec
  sr := 0
  ir := Config.nopWord
  opc := 0
  op1 := 0
  op2 := 0
  execState := .fetch
  prev := Vector.replicate 3 0
  lfa := 0
  pm := []
  dm := []
  stack := Stack.empty
  pinIn := Vector.replicate 3 0
  inputs := []

/-! ## The plain field updates; every operation of Ops.lean is built from them. -/

/-- `x[i]` (R20). -/
def State.reg (s : State) (i : Reg) : Word := s.regs.get i
/-- `x[i] <- v` (R20). -/
def State.setReg (s : State) (i : Reg) (v : Word) : State := { s with regs := s.regs.set i.val v i.isLt }
/-- All registers at once, as RETI writes them (R275). -/
def State.setRegs (s : State) (v : Vector Word 32) : State := { s with regs := v }
/-- `pc <- t` (R23). -/
def State.setPc (s : State) (t : Word) : State := { s with pc := t }
/-- `SR` as a whole (R26). -/
def State.setSr (s : State) (v : BitVec 6) : State := { s with sr := v }
/-- `IR` and the three operand latches (R30, R31). -/
def State.setLatches (s : State) (ir : InstrWord) (opc op1 : BitVec 8) (op2 : BitVec 16) : State :=
  { s with ir := ir, opc := opc, op1 := op1, op2 := op2 }
/-- `STATE` (R32). -/
def State.setExecState (s : State) (v : ExecState) : State := { s with execState := v }
/-- `PREV`, all ports (R33). -/
def State.setPrev (s : State) (v : Vector Word 3) : State := { s with prev := v }
/-- Data memory as a whole. -/
def State.setDm (s : State) (m : Memory) : State := { s with dm := m }
/-- The stack as a whole. -/
def State.setStack (s : State) (st : Stack) : State := { s with stack := st }
/-- The host's side: the levels at the pins and the inputs still to come. -/
def State.setHost (s : State) (pins : Vector Word 3) (ins : List HostInput) : State :=
  { s with pinIn := pins, inputs := ins }

end Sys2Proof.Machine
end

