-- ==== Sys2Proof/Machine/Flags.lean ====
section
/-! DEFINITION. The ALU and its flag laws (40_alu.md R130 to R138) and the six flags of the status register
(10_state.md R26 to R29). The ALU is written for any width, as R8 states its rules; the machine uses 32. -/

namespace Sys2Proof.Machine

/-- The five ALU operations (R130). -/
inductive AluOp where
  | bor | band | bxor | add | sub
  deriving DecidableEq, Repr

/-- The five flags an ALU operation computes; I is not among them (R137). -/
structure AluFlags where
  s : Bool
  n : Bool
  z : Bool
  v : Bool
  c : Bool
  deriving DecidableEq, Repr

/-- N, Z and S from a result, with the operation's own V and C (R136). -/
def flagsOf {w : Nat} (r : BitVec w) (v c : Bool) : AluFlags :=
  { s := r.msb ^^ v, n := r.msb, z := r == 0, v := v, c := c }

/-- OR, AND, XOR: the result is bitwise, V = C = 0 (R131, R132, R133). -/
def aluBitwise {w : Nat} (r : BitVec w) : BitVec w × AluFlags :=
  (r, flagsOf r false false)

/-- ADD through one bit more than the operand width (R134). -/
def aluAdd {w : Nat} (a b : BitVec w) : BitVec w × AluFlags :=
  let t : BitVec (w + 1) := a.setWidth (w + 1) + b.setWidth (w + 1)
  let r : BitVec w := t.setWidth w
  (r, flagsOf r (a.msb == b.msb && r.msb != a.msb) (t.getLsbD w))

/-- SUB through one bit more than the operand width; C is the borrow itself (R135). -/
def aluSub {w : Nat} (a b : BitVec w) : BitVec w × AluFlags :=
  let t : BitVec (w + 1) := a.setWidth (w + 1) - b.setWidth (w + 1)
  let r : BitVec w := t.setWidth w
  (r, flagsOf r (a.msb != b.msb && r.msb == b.msb) (t.getLsbD w))

/-- `ALU(op, a, b)`, a pure function of the operation and the two operands (R130, R138). -/
def alu {w : Nat} (op : AluOp) (a b : BitVec w) : BitVec w × AluFlags :=
  match op with
  | .bor => aluBitwise (a ||| b)
  | .band => aluBitwise (a &&& b)
  | .bxor => aluBitwise (a ^^^ b)
  | .add => aluAdd a b
  | .sub => aluSub a b

/-! ## The status register: bits 5 to 0 are I S N Z V C (R26). -/

/-- Flag I, interrupt enable (R26). -/
def State.flagI (s : State) : Bool := s.sr.getLsbD 5
/-- Flag S, signed (R26). -/
def State.flagS (s : State) : Bool := s.sr.getLsbD 4
/-- Flag N, negative (R26). -/
def State.flagN (s : State) : Bool := s.sr.getLsbD 3
/-- Flag Z, zero (R26). -/
def State.flagZ (s : State) : Bool := s.sr.getLsbD 2
/-- Flag V, overflow (R26). -/
def State.flagV (s : State) : Bool := s.sr.getLsbD 1
/-- Flag C, carry (R26). -/
def State.flagC (s : State) : Bool := s.sr.getLsbD 0

/-- The status register with the six flags at their places (R26). -/
def packSr (i : Bool) (f : AluFlags) : BitVec 6 :=
  BitVec.ofBool i ++ BitVec.ofBool f.s ++ BitVec.ofBool f.n ++ BitVec.ofBool f.z ++ BitVec.ofBool f.v ++ BitVec.ofBool f.c

/-- The five ALU flags as the status register holds them. -/
def State.aluFlags (s : State) : AluFlags :=
  { s := s.flagS, n := s.flagN, z := s.flagZ, v := s.flagV, c := s.flagC }

/-- `SetFlagsSNZVC(f)`: five flags together, I untouched (R137). -/
def setFlagsSNZVC (f : AluFlags) (s : State) : State := s.setSr (packSr s.flagI f)

/-- `SR.I <- b`, the other five flags untouched (R243, R244, R270, R242). -/
def setFlagI (b : Bool) (s : State) : State := s.setSr (packSr b s.aluFlags)

end Sys2Proof.Machine
end

