-- ==== Sys2Proof/Machine/Ops.lean ====
section
/-! DEFINITION. The named operations over memory, the stack and the registers (20_memory.md), reset
(70_reset_and_hazards.md R300), the decode error (60_exceptions.md R260), the boundary step with the interrupt
dispatch (R264 to R270), and the return from it (R275). -/

namespace Sys2Proof.Machine

/-! ## Cells -/

/-- The cell at an address; an unlisted address holds 0 (R44, R62). -/
def Memory.lookup : Memory → Nat → Word
  | [], _ => 0#32
  | (b, v) :: m, a => if a = b then v else Memory.lookup m a

/-- The memory without any entry for an address. -/
def Memory.erase : Memory → Nat → Memory
  | [], _ => []
  | (b, v) :: m, a => if a = b then Memory.erase m a else (b, v) :: Memory.erase m a

/-- A new entry put before the first entry at a higher address. -/
def Memory.insertCell : Memory → Nat → Word → Memory
  | [], a, v => [(a, v)]
  | (b, w) :: m, a, v => if a < b then (a, v) :: (b, w) :: m else (b, w) :: Memory.insertCell m a v

/-- The cell at an address written: the canonical form is kept, and writing 0 removes the entry. -/
def Memory.store (m : Memory) (a : Nat) (v : Word) : Memory :=
  if v = 0#32 then Memory.erase m a else Memory.insertCell (Memory.erase m a) a v

/-! ## Program memory -/

/-- `PMRead(a)` (R61): the word at `a`, `NOP_WORD` at or beyond `PM_SIZE`. -/
def pmRead (s : State) (a : Word) : InstrWord :=
  if a.toNat < Config.pmSize then Memory.lookup s.pm a.toNat else Config.nopWord

/-- Program words stored from an address on, those at or beyond `PM_SIZE` dropped. -/
def storeWords (m : Memory) (a : Nat) : List InstrWord → Memory
  | [] => m
  | w :: ws => storeWords (if a < Config.pmSize then Memory.store m a w else m) (a + 1) ws

/-- The host's `load(program)` (R36, R62): the program from address 0 on, NOP_WORD in every other word. A word beyond
`PM_SIZE` has no place and is dropped (DESIGN CHOICE, log 20). No operation of the core calls this. -/
def State.load (program : List InstrWord) (s : State) : State :=
  { s with pm := storeWords [] 0 program }

/-! ## Data memory -/

/-- `MemRead(addr, 1)` (R64): the cell, 0 out of range; no side effect anywhere. -/
def memRead (s : State) (a : Nat) : Word :=
  if a < Config.dmSize then Memory.lookup s.dm a else 0#32

/-- `MemWrite(addr, 1, v)` (R65): the cell written; nothing changes out of range. -/
def memWrite (a : Nat) (v : Word) (s : State) : State :=
  if a < Config.dmSize then s.setDm (Memory.store s.dm a v) else s

/-- `ddr_out[n]`, the current value of `DDRn` (R38, R150). -/
def State.ddrOut (s : State) (n : Port) : Word := memRead s (ddrAddr n)
/-- `port_out[n]`, the current value of `PORTn` (R38, R150). -/
def State.portOut (s : State) (n : Port) : Word := memRead s (portAddr n)

/-! ## The stack -/

/-- `Push(v)` on the stack (R77): nothing changes when it is full; else pre-decrement, then store. -/
def Stack.push (v : Word) (st : Stack) : Stack :=
  if h : st.sp.val = 0 then st
  else { cells := Memory.store st.cells (st.sp.val - 1) v, sp := ⟨st.sp.val - 1, by omega⟩ }

/-- `Pop()` (R78): 0 and no change when the stack is empty; else the top word, then post-increment. -/
def Stack.pop (st : Stack) : Word × Stack :=
  if h : st.sp.val < Config.stackDepth then
    (Memory.lookup st.cells st.sp.val, { st with sp := ⟨st.sp.val + 1, by omega⟩ })
  else (0#32, st)

/-- Several pushes, the first word of the list first, each obeying R77 on its own (R273). -/
def Stack.pushAll (ws : List Word) (st : Stack) : Stack :=
  ws.foldl (fun t w => t.push w) st

/-- `k` pops, each obeying R78 on its own (R275); the first popped word is the head of the list. -/
def Stack.popMany : Nat → Stack → List Word × Stack
  | 0, st => ([], st)
  | k + 1, st => (st.pop.1 :: (Stack.popMany k st.pop.2).1, (Stack.popMany k st.pop.2).2)

/-- `Push(v)` of the machine. -/
def pushWord (v : Word) (s : State) : State := s.setStack (s.stack.push v)

/-- The word the machine's `Pop()` answers. -/
def popValue (s : State) : Word := s.stack.pop.1

/-- The state after the machine's `Pop()`. -/
def popState (s : State) : State := s.setStack s.stack.pop.2

/-! ## Reset and the decode error -/

/-- `Reset()` (R300): every piece of state at its reset value, `StackReset()` (R79) included; program memory keeps
the program (R44), and the host's inputs are the host's (DEDUCED, log 6). -/
def resetMachine (s : State) : State :=
  { State.reset with pm := s.pm, pinIn := s.pinIn, inputs := s.inputs }

/-- `raise DecodeError(opc)` (R260): the full reset. Nothing of the failing context is saved, and the opcode is
lost. The tick ends here (R157): the boundary step does not follow, see Cycle.lean. -/
def raiseDecodeError (_opc : BitVec 8) (s : State) : State := resetMachine s

/-! ## The boundary step: pin sample, edge detection -/

/-- Bit n of a word, source n's bit of `ICR` and `IFR` (R39). -/
def sourceBit (n : Port) : Word := 1#32 <<< n.val

/-- The pin sample of one port (R265). -/
def samplePin (n : Port) (s : State) : State := memWrite (pinAddr n) (s.pinIn.get n) s

/-- The pin sample, ports in ascending order (R265). -/
def samplePins (s : State) : State := samplePin 2 (samplePin 1 (samplePin 0 s))

/-- The masked changed bits of one port: `(new ^ PREV[n]) & IMSKn` (R266). -/
def changedPins (n : Port) (s : State) : Word :=
  (memRead s (pinAddr n) ^^^ s.prev.get n) &&& memRead s (imskAddr n)

/-- `IFR` with source n's bit set (R66, R266). -/
def raiseFlag (n : Port) (s : State) : State := memWrite ifrAddr (memRead s ifrAddr ||| sourceBit n) s

/-- `PREV[n] <- new` (R266). -/
def recordSample (n : Port) (s : State) : State :=
  s.setPrev (s.prev.set n.val (memRead s (pinAddr n)) n.isLt)

/-- Edge detection of one port (R266); it looks at neither I nor ICR (R267). -/
def detectEdge (n : Port) (s : State) : State :=
  recordSample n (if changedPins n s = 0#32 then s else raiseFlag n s)

/-- Edge detection, ports in ascending order (R266). -/
def detectEdges (s : State) : State := detectEdge 2 (detectEdge 1 (detectEdge 0 s))

/-! ## The boundary step: dispatch -/

/-- Source n is eligible: I set, `ICR[n]` set, `IFR[n]` set (R268). -/
def eligible (s : State) (n : Port) : Bool :=
  s.flagI && (memRead s icrAddr).getLsbD n.val && (memRead s ifrAddr).getLsbD n.val

/-- The eligible source of the lowest index, if any (R269). -/
def selectSource (s : State) : Option Port :=
  if eligible s 0 then some 0 else if eligible s 1 then some 1 else if eligible s 2 then some 2 else none

/-- `STATE` in two bits: FETCH 0, DECODE 1, EXECUTE 2 (R32). -/
def ExecState.bits : ExecState → BitVec 2
  | .fetch => 0
  | .decode => 1
  | .execute => 2

/-- The execution state of two bits; 3, which no state holds, is taken as FETCH, which the EXECUTE tick then
writes anyway (R275, U10; DESIGN CHOICE, log 11). -/
def ExecState.ofBits (b : BitVec 2) : ExecState :=
  match b.toNat with
  | 1 => .decode
  | 2 => .execute
  | _ => .fetch

/-- The context, word 0 first (R270, R271): pc, IR, SR, OPC, OP1, OP2, STATE, PREV ascending, registers ascending,
each zero-extended to a word. -/
def contextWords (s : State) : List Word :=
  [s.pc, s.ir, s.sr.setWidth 32, s.opc.setWidth 32, s.op1.setWidth 32, s.op2.setWidth 32,
    s.execState.bits.setWidth 32] ++ s.prev.toList ++ s.regs.toList

/-- `IFR` with source n's bit cleared (R66, R270 step 1). -/
def clearFlag (n : Port) (s : State) : State := memWrite ifrAddr (memRead s ifrAddr &&& ~~~ sourceBit n) s

/-- The context pushed, word 0 first (R270 step 2, R271). -/
def saveContext (s : State) : State := s.setStack (s.stack.pushAll (contextWords s))

/-- `Dispatch(n)` (R270): TAKING THE INTERRUPT of source n. The pending bit is cleared, the 42 context words are
pushed with I still 1 in the saved SR, I is cleared, pc goes to `IVEC(n)`; nothing else changes. -/
def dispatchInterrupt (n : Port) (s : State) : State :=
  (setFlagI false (saveContext (clearFlag n s))).setPc (ivec n)

/-- `Boundary(pin_in)` (R264): pin sample, edge detection, at most one dispatch (R269). -/
def boundary (s : State) : State :=
  match selectSource (detectEdges (samplePins s)) with
  | none => detectEdges (samplePins s)
  | some n => dispatchInterrupt n (detectEdges (samplePins s))

/-! ## Return from an interrupt -/

/-- The 42 popped words in the order they were pushed: word 0 of R271 first. -/
def poppedContext (s : State) : List Word := (Stack.popMany Config.ctxWords s.stack).1.reverse

/-- Context word j (R271). -/
def contextWord (ws : List Word) (j : Nat) : Word := ws.getD j 0#32

/-- What the context words give back, each cut to its register's width (R275, D33). -/
def loadContext (ws : List Word) (s : State) : State :=
  ((((s.setRegs (Vector.ofFn fun i => contextWord ws (10 + i.val))).setPrev
    (Vector.ofFn fun k => contextWord ws (7 + k.val))).setExecState
    (ExecState.ofBits ((contextWord ws 6).setWidth 2))).setLatches (contextWord ws 1)
      ((contextWord ws 3).setWidth 8) ((contextWord ws 4).setWidth 8) ((contextWord ws 5).setWidth 16)).setSr
    ((contextWord ws 2).setWidth 6) |>.setPc (contextWord ws 0)

/-- `RestoreContext()` (R275): 42 pops, the exact reverse of the dispatch's pushes. -/
def restoreContext (s : State) : State :=
  (loadContext (poppedContext s) s).setStack (Stack.popMany Config.ctxWords s.stack).2

/-! ## FETCH and DECODE -/

/-- The FETCH tick (R152). -/
def fetchTick (s : State) : State :=
  ({ s with ir := pmRead s s.pc, lfa := s.pc }.setPc (s.pc + 1)).setExecState .decode

/-- The host's side of one clock edge: what it presents there is now at the inputs; with nothing left to present,
rst is not asserted and the levels stay (DESIGN CHOICE, log 4). -/
def presentInputs (s : State) : State :=
  match s.inputs with
  | [] => s
  | i :: rest => s.setHost i.pins rest

/-- Whether rst is asserted at the coming clock edge (R162). -/
def rstAsserted (s : State) : Bool :=
  match s.inputs with
  | [] => false
  | i :: _ => i.rst

end Sys2Proof.Machine
end

