-- ==== Sys2Proof/Machine/ControlTransfer.lean ====
section
/-! DEFINITION. Jumps, conditional branches, call and return (44_control_transfer.md R220 to R231). pc already holds the
address of the next instruction (R155), so a transfer not taken changes nothing. -/

namespace Sys2Proof.Machine

/-- `if <predicate> then pc <- t` (R220). -/
def branchIf (taken : Bool) (target : BitVec 8) (s : State) : State :=
  if taken then s.setPc (targetOperand target) else s

/-- JMP target (R221). -/
def execJmp (target : BitVec 8) (s : State) : Result :=
  .next (s.setPc (targetOperand target))

/-- BREQ target (R222): Z. -/
def execBreq (target : BitVec 8) (s : State) : Result :=
  .next (branchIf s.flagZ target s)

/-- BRNE target (R223): !Z. -/
def execBrne (target : BitVec 8) (s : State) : Result :=
  .next (branchIf (!s.flagZ) target s)

/-- BRGE target (R224): !S. -/
def execBrge (target : BitVec 8) (s : State) : Result :=
  .next (branchIf (!s.flagS) target s)

/-- BRGT target (R225): !S && !Z. -/
def execBrgt (target : BitVec 8) (s : State) : Result :=
  .next (branchIf (!s.flagS && !s.flagZ) target s)

/-- BRLE target (R226): S || Z. -/
def execBrle (target : BitVec 8) (s : State) : Result :=
  .next (branchIf (s.flagS || s.flagZ) target s)

/-- BRLT target (R227): S. -/
def execBrlt (target : BitVec 8) (s : State) : Result :=
  .next (branchIf s.flagS target s)

/-- CALL target (R228): `Push(pc); pc <- t`; a dropped push does not stop the jump. -/
def execCall (target : BitVec 8) (s : State) : Result :=
  .next ((pushWord s.pc s).setPc (targetOperand target))

/-- RET (R229): `pc <- Pop()`, the whole popped word; I is not changed. -/
def execRet (s : State) : Result :=
  .next ((popState s).setPc (popValue s))

end Sys2Proof.Machine
end

