-- ==== Sys2Proof/Machine/DataTransfer.lean ====
section
/-! DEFINITION. Data movement and memory transfer (42_data_transfer.md R169 to R177): NOP, LDI, MOV, OUT, IN, STS,
LDS, CLR. None touches SR, the stack or pc (R169). -/

namespace Sys2Proof.Machine

/-- NOP (R170): no state change. -/
def execNop (s : State) : Result := .next s

/-- LDI dst,const (R171): `x[d] <- imm`. -/
def execLdi (rd : Reg) (imm : BitVec 16) (s : State) : Result :=
  .next (s.setReg rd (immOperand imm))

/-- MOV dst,src (R172): `x[d] <- x[s]`. -/
def execMov (rd rs : Reg) (s : State) : Result :=
  .next (s.setReg rd (s.reg rs))

/-- What OUT does to data memory (R70, R173): at the toggle address PORT0 is XORed, elsewhere a plain write. -/
def outWrite (a : Nat) (v : Word) (s : State) : State :=
  if a = toggleAddr then memWrite (portAddr 0) (memRead s (portAddr 0) ^^^ v) s else memWrite a v s

/-- OUT ioaddr,src (R173). -/
def execOut (addr : BitVec 8) (rs : Reg) (s : State) : Result :=
  .next (outWrite (outAddr addr) (s.reg rs) s)

/-- IN dst,ioaddr (R174): `x[d] <- MemRead(a, 1)`, no read side effect. -/
def execIn (rd : Reg) (addr : BitVec 16) (s : State) : Result :=
  .next (s.setReg rd (memRead s (inAddr addr)))

/-- STS addr,src (R175): `MemWrite(DATA_BASE + a, 1, x[s])`. -/
def execSts (addr : BitVec 8) (rs : Reg) (s : State) : Result :=
  .next (memWrite (stsAddr addr) (s.reg rs) s)

/-- LDS dst,addr (R176): `x[d] <- MemRead(DATA_BASE + a, 1)`. -/
def execLds (rd : Reg) (addr : BitVec 16) (s : State) : Result :=
  .next (s.setReg rd (memRead s (ldsAddr addr)))

/-- CLR dst (R177): `x[d] <- 0`, no flag. -/
def execClr (rd : Reg) (s : State) : Result :=
  .next (s.setReg rd 0#32)

end Sys2Proof.Machine
end

