-- ==== Sys2Proof/Machine/LogicArith.lean ====
section
/-! DEFINITION. Logic, arithmetic, compare and shift (43_logic_arith.md R190 to R206). -/

namespace Sys2Proof.Machine

/-- `(r, f) = ALU(op, x[d], b); x[d] <- r; SetFlagsSNZVC(f)` (R190). -/
def aluWriteBack (op : AluOp) (rd : Reg) (b : Word) (s : State) : State :=
  setFlagsSNZVC (alu op (s.reg rd) b).2 (s.setReg rd (alu op (s.reg rd) b).1)

/-- `(r, f) = ALU(SUB, x[d], b); SetFlagsSNZVC(f)`, r discarded (R190, R203, R204). -/
def aluCompare (rd : Reg) (b : Word) (s : State) : State :=
  setFlagsSNZVC (alu .sub (s.reg rd) b).2 s

/-- ORI dst,const (R191). -/
def execOri (rd : Reg) (imm : BitVec 16) (s : State) : Result :=
  .next (aluWriteBack .bor rd (immOperand imm) s)

/-- ANDI dst,const (R192). -/
def execAndi (rd : Reg) (imm : BitVec 16) (s : State) : Result :=
  .next (aluWriteBack .band rd (immOperand imm) s)

/-- XORI dst,const (R193). -/
def execXori (rd : Reg) (imm : BitVec 16) (s : State) : Result :=
  .next (aluWriteBack .bxor rd (immOperand imm) s)

/-- OR dst,src (R194). -/
def execOr (rd rs : Reg) (s : State) : Result :=
  .next (aluWriteBack .bor rd (s.reg rs) s)

/-- AND dst,src (R195). -/
def execAnd (rd rs : Reg) (s : State) : Result :=
  .next (aluWriteBack .band rd (s.reg rs) s)

/-- XOR dst,src (R196). -/
def execXor (rd rs : Reg) (s : State) : Result :=
  .next (aluWriteBack .bxor rd (s.reg rs) s)

/-- ADDI dst,const (R197). -/
def execAddi (rd : Reg) (imm : BitVec 16) (s : State) : Result :=
  .next (aluWriteBack .add rd (immOperand imm) s)

/-- SUBI dst,const (R198). -/
def execSubi (rd : Reg) (imm : BitVec 16) (s : State) : Result :=
  .next (aluWriteBack .sub rd (immOperand imm) s)

/-- ADD dst,src (R199); there is no carry-in. -/
def execAdd (rd rs : Reg) (s : State) : Result :=
  .next (aluWriteBack .add rd (s.reg rs) s)

/-- SUB dst,src (R200). -/
def execSub (rd rs : Reg) (s : State) : Result :=
  .next (aluWriteBack .sub rd (s.reg rs) s)

/-- INC dst (R201): exactly ADDI with constant 1, C included. -/
def execInc (rd : Reg) (s : State) : Result :=
  .next (aluWriteBack .add rd 1#32 s)

/-- DEC dst (R202): exactly SUBI with constant 1, C included. -/
def execDec (rd : Reg) (s : State) : Result :=
  .next (aluWriteBack .sub rd 1#32 s)

/-- CPI dst,const (R203). -/
def execCpi (rd : Reg) (imm : BitVec 16) (s : State) : Result :=
  .next (aluCompare rd (immOperand imm) s)

/-- CP dst,src (R204). -/
def execCp (rd rs : Reg) (s : State) : Result :=
  .next (aluCompare rd (s.reg rs) s)

/-- LSL dst (R205): one place left, zero in, no flag. -/
def execLsl (rd : Reg) (s : State) : Result :=
  .next (s.setReg rd (s.reg rd <<< 1))

/-- LSR dst (R206): one place right, zero in, no flag. -/
def execLsr (rd : Reg) (s : State) : Result :=
  .next (s.setReg rd (s.reg rd >>> 1))

end Sys2Proof.Machine
end

