-- ==== Sys2Proof/Machine/StackSystem.lean ====
section
/-! DEFINITION. Stack and system instructions (45_stack_system.md R240 to R244). None is privileged: there is one mode
(60_exceptions.md R280). -/

namespace Sys2Proof.Machine

/-- PUSH src (R240): `Push(x[s])`. -/
def execPush (rs : Reg) (s : State) : Result :=
  .next (pushWord (s.reg rs) s)

/-- POP dst (R241): `x[d] <- Pop()`. -/
def execPop (rd : Reg) (s : State) : Result :=
  .next ((popState s).setReg rd (popValue s))

/-- RETI (R242): `RestoreContext(); SR.I <- 1`. -/
def execReti (s : State) : Result :=
  .next (setFlagI true (restoreContext s))

/-- SEI (R243): `SR.I <- 1`. -/
def execSei (s : State) : Result :=
  .next (setFlagI true s)

/-- CLI (R244): `SR.I <- 0`. -/
def execCli (s : State) : Result :=
  .next (setFlagI false s)

end Sys2Proof.Machine
end

