-- ==== Sys2Proof/Machine/Dispatch.lean ====
section
/-! DEFINITION. Dispatch on the instruction (41_control_cycle.md R156): one arm per constructor. -/

namespace Sys2Proof.Machine

/-- The Operation of an instruction, performed in its EXECUTE tick (R154, R156). -/
def exec (i : Instr) (s : State) : Host.Outcome State Fault Refusal :=
  match i with
  | .nop => Sys2Proof.Machine.execNop s
  | .ldi rd imm => Sys2Proof.Machine.execLdi rd imm s
  | .mov rd rs => Sys2Proof.Machine.execMov rd rs s
  | .out addr rs => Sys2Proof.Machine.execOut addr rs s
  | .in_ rd addr => Sys2Proof.Machine.execIn rd addr s
  | .sts addr rs => Sys2Proof.Machine.execSts addr rs s
  | .lds rd addr => Sys2Proof.Machine.execLds rd addr s
  | .clr rd => Sys2Proof.Machine.execClr rd s
  | .ori rd imm => Sys2Proof.Machine.execOri rd imm s
  | .andi rd imm => Sys2Proof.Machine.execAndi rd imm s
  | .xori rd imm => Sys2Proof.Machine.execXori rd imm s
  | .orr rd rs => Sys2Proof.Machine.execOr rd rs s
  | .andr rd rs => Sys2Proof.Machine.execAnd rd rs s
  | .xorr rd rs => Sys2Proof.Machine.execXor rd rs s
  | .addi rd imm => Sys2Proof.Machine.execAddi rd imm s
  | .subi rd imm => Sys2Proof.Machine.execSubi rd imm s
  | .add rd rs => Sys2Proof.Machine.execAdd rd rs s
  | .sub rd rs => Sys2Proof.Machine.execSub rd rs s
  | .inc rd => Sys2Proof.Machine.execInc rd s
  | .dec rd => Sys2Proof.Machine.execDec rd s
  | .cpi rd imm => Sys2Proof.Machine.execCpi rd imm s
  | .cp rd rs => Sys2Proof.Machine.execCp rd rs s
  | .jmp target => Sys2Proof.Machine.execJmp target s
  | .breq target => Sys2Proof.Machine.execBreq target s
  | .brne target => Sys2Proof.Machine.execBrne target s
  | .brge target => Sys2Proof.Machine.execBrge target s
  | .brgt target => Sys2Proof.Machine.execBrgt target s
  | .brle target => Sys2Proof.Machine.execBrle target s
  | .brlt target => Sys2Proof.Machine.execBrlt target s
  | .call target => Sys2Proof.Machine.execCall target s
  | .ret => Sys2Proof.Machine.execRet s
  | .reti => Sys2Proof.Machine.execReti s
  | .push rs => Sys2Proof.Machine.execPush rs s
  | .pop rd => Sys2Proof.Machine.execPop rd s
  | .lsl rd => Sys2Proof.Machine.execLsl rd s
  | .lsr rd => Sys2Proof.Machine.execLsr rd s
  | .sei => Sys2Proof.Machine.execSei s
  | .cli => Sys2Proof.Machine.execCli s

end Sys2Proof.Machine
end

