-- ==== Sys2Proof/Machine/Cycle.lean ====
section
/-! DEFINITION. The control unit's cycle (41_control_cycle.md): the DECODE and EXECUTE ticks, the tick, the clock edge with
its reset input, and `InstrStep`. The FETCH tick stands in Ops.lean. -/

namespace Sys2Proof.Machine

/-- The DECODE tick (R153): the three fields latched, whatever the opcode. -/
def decodeTick (s : State) : State :=
  (s.setLatches s.ir (opcField s.ir) (op1Field s.ir) (op2Field s.ir)).setExecState .execute

/-- What follows an instruction's Operation in its EXECUTE tick (R154): `STATE <- FETCH`, then the boundary step. -/
def finishInstr (r : Result) : Result :=
  match r with
  | .next s => .next (boundary (s.setExecState .fetch))
  | .fault f => .fault f
  | .refused r => .refused r

/-- The EXECUTE tick (R154, R155): it reads the latches, not IR; an unrecognised opcode resets the machine and no
boundary step follows (R157). -/
def executeTick (s : State) : Result :=
  match decodeFields s.opc s.op1 s.op2 with
  | .ok i => finishInstr (exec i s)
  | .error (.unrecognisedOpcode opc) => .next (raiseDecodeError opc s)

/-- `Tick(pin_in)` (R151), pin_in being the levels at the inputs. -/
def tick (s : State) : Result :=
  match s.execState with
  | .fetch => .next (fetchTick s)
  | .decode => .next (decodeTick s)
  | .execute => executeTick s

/-- One active clock edge (R150): `Reset()` where rst is asserted (R162), else one tick. -/
def clockEdge (s : State) : Result :=
  if rstAsserted s then .next (resetMachine (presentInputs s)) else tick (presentInputs s)

/-- Whether the coming clock edge is the last of an instruction step (R160): it performs an EXECUTE tick, or a
reset (D30; DEDUCED, log 7). -/
def endsInstr (s : State) : Bool := rstAsserted s || s.execState == .execute

/-- At most `k` clock edges, up to the end of the instruction in progress. -/
def runEdges : Nat → State → Result
  | 0, s => .next s
  | k + 1, s =>
    match clockEdge s with
    | .next s' => if endsInstr s then .next s' else runEdges k s'
    | .fault f => .fault f
    | .refused r => .refused r

/-- `InstrStep(pin_in)` (R160): ticks until an EXECUTE tick has been performed, three of them from FETCH. -/
def instrStep (s : State) : Result := runEdges 3 s

/-- The inputs with rst not asserted in the first `k` of them. -/
def withoutRst : Nat → List HostInput → List HostInput
  | 0, l => l
  | _, [] => []
  | k + 1, i :: l => { i with rst := false } :: withoutRst k l

/-- The state in which the next instruction step fetches the word `w`: STATE is FETCH, pc inside program memory, the word
there, and no rst at the three edges of that step (DESIGN CHOICE, log 10). -/
def placeNextInstr (w : InstrWord) (s : State) : State :=
  let pc : Word := if s.pc.toNat < Config.pmSize then s.pc else Config.resetVec
  { s with pc := pc, execState := .fetch, pm := Memory.store s.pm pc.toNat w, inputs := withoutRst 3 s.inputs }

end Sys2Proof.Machine
end

