-- ==== Sys2Proof/Machine/Step.lean ====
section
/-! DEFINITION. The step of the machine: one `InstrStep` (41_control_cycle.md R160; assumption log 3). -/

namespace Sys2Proof.Machine

/-- One instruction: up to three clock edges, FETCH, DECODE, EXECUTE with its boundary step (R158, R160). -/
def step (s : State) : Host.Outcome State Fault Refusal := instrStep s

/-- The same machine with the instruction whose bits are `w`, as spec/opcode_table.json numbers them, where the
next step fetches it. It stands for the host's load of a program (R62, R304; assumption log 9, 10). -/
def State.withFetchWord (s : State) (nbits w : Nat) : State :=
  placeNextInstr (BitVec.ofNat 32 (w % 2 ^ nbits)) s

end Sys2Proof.Machine
end

