-- ==== Sys2Proof/Safety.lean ====
section
/-! DEFINITION. The words the statements are written in: good states, safe runs, what an instruction leaves as it was, and
the spec's own formulas for words, flags and pending interrupts, written beside the machine and not from it. -/

namespace Sys2Proof.Machine

/-! ## Good states and safe runs -/

/-- The three memories are in their canonical form, each within its size (R36, R37, R41). -/
def State.wf (s : State) : Bool :=
  Memory.wf Config.pmSize s.pm && Memory.wf Config.dmSize s.dm && Memory.wf Config.stackDepth s.stack.cells

/-- The flag law of R27: S = N xor V. -/
def State.signLaw (s : State) : Prop := s.flagS = (s.flagN ^^ s.flagV)

/-- Room on the stack for one interrupt context (R312). -/
def State.headroom (s : State) : Bool := decide (Config.ctxWords ≤ s.stack.sp.val)

/-- `k` steps from `s` meet no fault and no refusal. -/
def State.safeFor (s : State) (k : Nat) : Prop := ∃ t, Sys2Proof.core.run k s = .next t

/-! ## What is left as it was -/

/-- All general registers. -/
def keepsRegs (s t : State) : Prop := ∀ r : Reg, t.reg r = s.reg r

/-- All general registers but one. -/
def keepsRegsBut (rd : Reg) (s t : State) : Prop := ∀ r : Reg, r ≠ rd → t.reg r = s.reg r

/-- Every cell of data memory, through the machine's own read. -/
def keepsData (s t : State) : Prop := ∀ a : Nat, memRead t a = memRead s a

/-- Every cell of data memory but one. -/
def keepsDataBut (b : Nat) (s t : State) : Prop := ∀ a : Nat, a ≠ b → memRead t a = memRead s a

/-- IR, the latches, STATE, PREV, LFA, program memory and, the model's own fields, the host's side (log 4). -/
def keepsRest (s t : State) : Prop :=
  t.ir = s.ir ∧ t.opc = s.opc ∧ t.op1 = s.op1 ∧ t.op2 = s.op2 ∧ t.execState = s.execState ∧ t.prev = s.prev ∧
    t.lfa = s.lfa ∧ t.pm = s.pm ∧ t.pinIn = s.pinIn ∧ t.inputs = s.inputs

/-- Everything but general register `rd`. -/
def onlyReg (rd : Reg) (s t : State) : Prop :=
  keepsRegsBut rd s t ∧ t.sr = s.sr ∧ t.pc = s.pc ∧ t.stack = s.stack ∧ keepsData s t ∧ keepsRest s t

/-- Everything but general register `rd` and the flags S N Z V C; I is kept. -/
def onlyRegAndFlags (rd : Reg) (s t : State) : Prop :=
  keepsRegsBut rd s t ∧ t.flagI = s.flagI ∧ t.pc = s.pc ∧ t.stack = s.stack ∧ keepsData s t ∧ keepsRest s t

/-- Everything but data-memory cell `a`. -/
def onlyCell (a : Nat) (s t : State) : Prop :=
  keepsRegs s t ∧ t.sr = s.sr ∧ t.pc = s.pc ∧ t.stack = s.stack ∧ keepsDataBut a s t ∧ keepsRest s t

/-- Everything but pc. -/
def onlyPc (s t : State) : Prop :=
  keepsRegs s t ∧ t.sr = s.sr ∧ t.stack = s.stack ∧ keepsData s t ∧ keepsRest s t

/-- Everything but pc and the stack. -/
def onlyPcAndStack (s t : State) : Prop :=
  keepsRegs s t ∧ t.sr = s.sr ∧ keepsData s t ∧ keepsRest s t

/-- The stack one word deeper with `v` on top, every other cell as it was; a full stack as it was (R77). -/
def pushed (v : Word) (before after : Stack) : Prop :=
  (before.sp.val = 0 → after = before) ∧
    (before.sp.val ≠ 0 → after.sp.val = before.sp.val - 1 ∧ Memory.lookup after.cells (before.sp.val - 1) = v ∧
      ∀ a, a ≠ before.sp.val - 1 → Memory.lookup after.cells a = Memory.lookup before.cells a)

/-- `v` is what a pop answers and `after` what it leaves; an empty stack answers 0 and stays as it was (R78). -/
def popped (v : Word) (before after : Stack) : Prop :=
  (before.sp.val = 1024 → v = 0#32 ∧ after = before) ∧
    (before.sp.val ≠ 1024 → v = Memory.lookup before.cells before.sp.val ∧ after.sp.val = before.sp.val + 1 ∧
      after.cells = before.cells)

/-! ## The spec's formulas -/

/-- `w = opcode * 2^24 + op1 * 2^16 + op2` (R101). -/
def wordOf (opcode : Nat) (op1 : BitVec 8) (op2 : BitVec 16) : InstrWord :=
  BitVec.ofNat 32 (opcode * 2 ^ 24 + op1.toNat * 2 ^ 16 + op2.toNat)

/-- `reg(f) = f mod 32` (R103). -/
def regOf {n : Nat} (f : BitVec n) : Reg := Fin.ofNat 32 f.toNat

/-- The opcode `opcode` with any operand fields decodes to what `f` makes of them (R101, R102, R106). -/
def decodesTo (opcode : Nat) (f : BitVec 8 → BitVec 16 → Instr) : Prop :=
  ∀ (op1 : BitVec 8) (op2 : BitVec 16), decode (wordOf opcode op1 op2) = .ok (f op1 op2)

/-- Flags after a bitwise operation with result `r` (R131 to R133, R136). -/
def flagsAfterBitwise (r : Word) (t : State) : Prop :=
  t.flagN = r.msb ∧ (t.flagZ = true ↔ r = 0#32) ∧ t.flagS = r.msb ∧ t.flagV = false ∧ t.flagC = false

/-- Flags after `a + b` (R134, R136). -/
def flagsAfterAdd (a b : Word) (t : State) : Prop :=
  t.flagN = (a + b).msb ∧ (t.flagZ = true ↔ a + b = 0#32) ∧ t.flagS = (t.flagN ^^ t.flagV) ∧
    (t.flagC = true ↔ 2 ^ 32 ≤ a.toNat + b.toNat) ∧ (t.flagV = true ↔ a.msb = b.msb ∧ (a + b).msb ≠ a.msb)

/-- Flags after `a - b` (R135, R136): C is the borrow. -/
def flagsAfterSub (a b : Word) (t : State) : Prop :=
  t.flagN = (a - b).msb ∧ (t.flagZ = true ↔ a - b = 0#32) ∧ t.flagS = (t.flagN ^^ t.flagV) ∧
    (t.flagC = true ↔ a.toNat < b.toNat) ∧ (t.flagV = true ↔ a.msb ≠ b.msb ∧ (a - b).msb = b.msb)

/-- The register an instruction writes as its destination (R22); RETI, which writes all, is not among them. -/
def destReg : Instr → Option Reg
  | .ldi d _ | .mov d _ | .in_ d _ | .lds d _ | .clr d | .ori d _ | .andi d _ | .xori d _ | .orr d _ | .andr d _
  | .xorr d _ | .addi d _ | .subi d _ | .add d _ | .sub d _ | .inc d | .dec d | .pop d | .lsl d | .lsr d => some d
  | _ => none

/-- The instructions that write S N Z V C together through the ALU (R28). -/
def writesAluFlags : Instr → Bool
  | .ori .. | .andi .. | .xori .. | .orr .. | .andr .. | .xorr .. | .addi .. | .subi .. | .add .. | .sub ..
  | .inc .. | .dec .. | .cpi .. | .cp .. => true
  | _ => false

/-- The instructions that may write pc (R24). -/
def writesPc : Instr → Bool
  | .jmp .. | .breq .. | .brne .. | .brge .. | .brgt .. | .brle .. | .brlt .. | .call .. | .ret | .reti => true
  | _ => false

/-- The instructions that use the stack (R60). -/
def usesStack : Instr → Bool
  | .call .. | .ret | .push .. | .pop .. | .reti => true
  | _ => false

/-! ## The interrupt context on the stack -/

/-- What the pop behind `k` earlier pops answers: the cell `k` places above the pointer, 0 where the stack has run out (R78). -/
def wordAbove (k : Nat) (st : Stack) : Word :=
  if st.sp.val + k < 1024 then Memory.lookup st.cells (st.sp.val + k) else 0#32

/-- The stack `after` a dispatch from the machine `s` with edge history `prev`: with the pointer at `p` before it, word `j` of
the context in cell `p - 1 - j` as long as there is room, every cell outside these as before, the pointer down by 42 or to
the full sentinel (R270, R271, R273). -/
def contextPushed (s : State) (prev : Vector Word 3) (after : Stack) : Prop :=
  let p := s.stack.sp.val
  after.sp.val = p - 42 ∧
    (0 < p → Memory.lookup after.cells (p - 1) = s.pc) ∧
    (1 < p → Memory.lookup after.cells (p - 2) = s.ir) ∧
    (2 < p → (Memory.lookup after.cells (p - 3)).toNat = s.sr.toNat) ∧
    (3 < p → (Memory.lookup after.cells (p - 4)).toNat = s.opc.toNat) ∧
    (4 < p → (Memory.lookup after.cells (p - 5)).toNat = s.op1.toNat) ∧
    (5 < p → (Memory.lookup after.cells (p - 6)).toNat = s.op2.toNat) ∧
    (6 < p → (Memory.lookup after.cells (p - 7)).toNat = s.execState.bits.toNat) ∧
    (∀ k : Port, 7 + k.val < p → Memory.lookup after.cells (p - 8 - k.val) = prev.get k) ∧
    (∀ r : Reg, 10 + r.val < p → Memory.lookup after.cells (p - 11 - r.val) = s.reg r) ∧
    ∀ a, p ≤ a ∨ a + 42 < p → Memory.lookup after.cells a = Memory.lookup s.stack.cells a

/-! ## An instruction's three edges -/

/-- rst is asserted at none of the next `k` clock edges. -/
def noRst (k : Nat) (s : State) : Prop := ∀ h ∈ s.inputs.take k, h.rst = false

/-- The state an instruction's Operation sees, from the state before its FETCH tick: three edges of host input taken,
the word fetched and its fields latched (R152, R153, R155). -/
def atExecute (s : State) : State :=
  { s with
    ir := pmRead s s.pc
    lfa := s.pc
    pc := s.pc + 1
    opc := (pmRead s s.pc).extractLsb' 24 8
    op1 := (pmRead s s.pc).extractLsb' 16 8
    op2 := (pmRead s s.pc).extractLsb' 0 16
    execState := .execute
    pinIn := (((s.inputs.take 3).getLast?.map HostInput.pins).getD s.pinIn)
    inputs := s.inputs.drop 3 }

/-! ## Interrupts -/

/-- A masked pin of port n differs from its previous sample (R266). -/
def pinChanged (s : State) (n : Port) : Bool :=
  ((s.pinIn.get n ^^^ s.prev.get n) &&& memRead s (11 + n.val)) != 0#32

/-- Source n is pending after this boundary's edge detection (R266, R267). -/
def pendingAfter (s : State) (n : Port) : Bool := (memRead s 10).getLsbD n.val || pinChanged s n

/-- Source n may be dispatched at this boundary (R268). -/
def mayDispatch (s : State) (n : Port) : Bool :=
  s.flagI && (memRead s 9).getLsbD n.val && pendingAfter s n

end Sys2Proof.Machine
end

