-- ==== Sys2Proof/Certificates/Slice0/Obligations.lean ====
section
/-! DEFINITION. The statements for the provers. Each docstring names the rules of spec/ its statement formalises. `s` is the
machine before, `t` after. An instruction's statement says what it does whole: how its words decode, that it completes,
its result, its flags, and its frame; `exec` is the Operation alone, with pc already at the next instruction (R155). -/

open Sys2Proof Sys2Proof.Machine

/-! ## Encoding -/

/-- Decoding an encoded instruction gives it back, for every instruction and every operand; encoding a decoded word gives the
word back exactly when the word is well-formed (R109). -/
def Obligations.DecodeEncodeAgree : Prop :=
  (∀ i : Instr, decode (encode i) = .ok i) ∧
    ∀ (w : InstrWord) (i : Instr), decode w = .ok i → (encode i = w ↔ wordWellFormed w = true)

/-- The well-formed words are exactly the canonical words of instructions (R112). -/
def Obligations.WellFormedWordsAreCanonicalWords : Prop :=
  ∀ w : InstrWord, wordWellFormed w = true ↔ ∃ i : Instr, encode i = w

/-- The decoder is total: opcodes 0x00 to 0x25 decode whatever the operand fields hold, all others are rejected by name; the
bits of an ignored field, and the upper bits of a register field, change nothing (R108, with R103, R105). -/
def Obligations.DecoderTotalAndIgnoresUnusedBits : Prop :=
  (∀ w : InstrWord, (w.toNat < 0x26000000 → ∃ i, decode w = .ok i) ∧
    (0x26000000 ≤ w.toNat → decode w = .error (.unrecognisedOpcode (w.extractLsb' 24 8)))) ∧
  ∀ (c a a' : BitVec 8) (b b' : BitVec 16),
    (formOf c = some .N → decode (wordOf c.toNat a b) = decode (wordOf c.toNat a' b')) ∧
    (formOf c = some .T → decode (wordOf c.toNat a b) = decode (wordOf c.toNat a b')) ∧
    (formOf c = some .R → regOf a = regOf a' → decode (wordOf c.toNat a b) = decode (wordOf c.toNat a' b')) ∧
    (formOf c = some .RI ∨ formOf c = some .RA → regOf a = regOf a' →
      decode (wordOf c.toNat a b) = decode (wordOf c.toNat a' b)) ∧
    (formOf c = some .RR → regOf a = regOf a' → regOf b = regOf b' →
      decode (wordOf c.toNat a b) = decode (wordOf c.toNat a' b')) ∧
    (formOf c = some .AR → regOf b = regOf b' → decode (wordOf c.toNat a b) = decode (wordOf c.toNat a b'))

/-- The worked encodings of the spec, decoded and encoded, and its smallest illegal word (R113). -/
def Obligations.WorkedEncodingsDecode : Prop :=
  decode 0x01100005#32 = .ok (.ldi 16 5) ∧ encode (.ldi 16 5) = 0x01100005#32 ∧
  decode 0x0E100003#32 = .ok (.addi 16 3) ∧ encode (.addi 16 3) = 0x0E100003#32 ∧
  decode 0x14100008#32 = .ok (.cpi 16 8) ∧ encode (.cpi 16 8) = 0x14100008#32 ∧
  decode 0x17100000#32 = .ok (.breq 0x10) ∧ encode (.breq 0x10) = 0x17100000#32 ∧
  decode 0x0F100001#32 = .ok (.subi 16 1) ∧ encode (.subi 16 1) = 0x0F100001#32 ∧
  decode 0x03020010#32 = .ok (.out 2 16) ∧ encode (.out 2 16) = 0x03020010#32 ∧
  decode 0x06120000#32 = .ok (.lds 18 0) ∧ encode (.lds 18 0) = 0x06120000#32 ∧
  decode 0x1F000000#32 = .ok .reti ∧ encode .reti = 0x1F000000#32 ∧
  decode 0x00000000#32 = .ok .nop ∧ encode .nop = 0x00000000#32 ∧
  decode 0x26000000#32 = .error (.unrecognisedOpcode 0x26) ∧
  ∀ w : InstrWord, w.toNat < 0x26000000 → ∃ i, decode w = .ok i

/-! ## The ALU -/

/-- The five ALU operations at any width: results, carry and borrow, overflow by the sign bits, and N, Z, S of the result
(R131 to R136). -/
def Obligations.AluOperationRules : Prop :=
  ∀ (w : Nat) (a b : BitVec w),
    (alu .bor a b).1 = a ||| b ∧ (alu .band a b).1 = a &&& b ∧ (alu .bxor a b).1 = a ^^^ b ∧
    (∀ op, op = .bor ∨ op = .band ∨ op = .bxor → (alu op a b).2.v = false ∧ (alu op a b).2.c = false) ∧
    (alu .add a b).1.toNat = (a.toNat + b.toNat) % 2 ^ w ∧
    ((alu .add a b).2.c = true ↔ 2 ^ w ≤ a.toNat + b.toNat) ∧
    ((alu .add a b).2.v = true ↔ a.msb = b.msb ∧ (alu .add a b).1.msb ≠ a.msb) ∧
    (alu .sub a b).1.toNat = (a.toNat + (2 ^ w - b.toNat)) % 2 ^ w ∧
    ((alu .sub a b).2.c = true ↔ a.toNat < b.toNat) ∧
    ((alu .sub a b).2.v = true ↔ a.msb ≠ b.msb ∧ (alu .sub a b).1.msb = b.msb) ∧
    ∀ op, (alu op a b).2.n = (alu op a b).1.msb ∧ ((alu op a b).2.z = true ↔ (alu op a b).1 = 0) ∧
      (alu op a b).2.s = ((alu op a b).2.n ^^ (alu op a b).2.v)

/-- The laws of R139 and the equivalent forms of R140, at any width: S is N xor V, Z is a zero result, bitwise operations
clear V and C, ADD undoes SUB, and V is exactly the signed result being out of range. -/
def Obligations.AluLawsAndIdentities : Prop :=
  ∀ (w : Nat) (a b : BitVec w),
    (∀ op, (alu op a b).2.s = ((alu op a b).2.n ^^ (alu op a b).2.v) ∧
      ((alu op a b).2.z = true ↔ (alu op a b).1 = 0)) ∧
    (∀ op, op = .bor ∨ op = .band ∨ op = .bxor → (alu op a b).2.v = false ∧ (alu op a b).2.c = false) ∧
    (alu .add (alu .sub a b).1 b).1 = a ∧
    ((alu .add a b).2.c = true ↔ 2 ^ w - 1 < a.toNat + b.toNat) ∧
    ((alu .add a b).2.v = true ↔ a.toInt + b.toInt < -(2 ^ (w - 1)) ∨ 2 ^ (w - 1) - 1 < a.toInt + b.toInt) ∧
    (alu .add a b).2.v = ((a.msb ^^ (alu .add a b).1.msb) && (b.msb ^^ (alu .add a b).1.msb)) ∧
    ((alu .sub a b).2.c = true ↔ a.toNat < b.toNat) ∧
    ((alu .sub a b).2.v = true ↔ a.toInt - b.toInt < -(2 ^ (w - 1)) ∨ 2 ^ (w - 1) - 1 < a.toInt - b.toInt) ∧
    (alu .sub a b).2.v = ((a.msb ^^ b.msb) && !((alu .sub a b).1.msb ^^ b.msb)) ∧
    (alu .sub a b).2.v = ((a.msb ^^ b.msb) && (a.msb ^^ (alu .sub a b).1.msb)) ∧
    (alu .add a b).1 = a + b ∧ (alu .sub a b).1 = a - b

/-- After SUB, Z is equality, C unsigned less-than and S signed less-than, overflow or not; so after CP or CPI the six
branches test signed comparisons (R141). -/
def Obligations.CompareThenBranchIsSigned : Prop :=
  (∀ (w : Nat) (a b : BitVec w), ((alu .sub a b).2.z = true ↔ a = b) ∧
    ((alu .sub a b).2.c = true ↔ a.toNat < b.toNat) ∧ ((alu .sub a b).2.s = true ↔ a.toInt < b.toInt)) ∧
  ∀ (s : State) (rd : Reg) (i : Instr) (b : Word),
    ((∃ rs, i = .cp rd rs ∧ b = s.reg rs) ∨ ∃ k : BitVec 16, i = .cpi rd k ∧ b = BitVec.ofNat 32 k.toNat) →
    ∃ t, exec i s = .next t ∧ ∀ x : BitVec 8,
      (∃ u, exec (.breq x) t = .next u ∧ u.pc = if s.reg rd = b then BitVec.ofNat 32 x.toNat else s.pc) ∧
      (∃ u, exec (.brne x) t = .next u ∧ u.pc = if s.reg rd ≠ b then BitVec.ofNat 32 x.toNat else s.pc) ∧
      (∃ u, exec (.brge x) t = .next u ∧
        u.pc = if b.toInt ≤ (s.reg rd).toInt then BitVec.ofNat 32 x.toNat else s.pc) ∧
      (∃ u, exec (.brgt x) t = .next u ∧
        u.pc = if b.toInt < (s.reg rd).toInt then BitVec.ofNat 32 x.toNat else s.pc) ∧
      (∃ u, exec (.brle x) t = .next u ∧
        u.pc = if (s.reg rd).toInt ≤ b.toInt then BitVec.ofNat 32 x.toNat else s.pc) ∧
      (∃ u, exec (.brlt x) t = .next u ∧
        u.pc = if (s.reg rd).toInt < b.toInt then BitVec.ofNat 32 x.toNat else s.pc)

/-! ## Memory and stack contracts -/

/-- MemRead and MemWrite over the whole address range: 0 read and nothing written out of range, read after write, every other
cell and every other piece of state kept (R64, R65). -/
def Obligations.DataMemoryContract : Prop :=
  ∀ (s : State) (a : Nat) (v : Word),
    (a < 512 → memRead s a = Memory.lookup s.dm a ∧ memRead (memWrite a v s) a = v) ∧
    (512 ≤ a → memRead s a = 0#32 ∧ memWrite a v s = s) ∧
    onlyCell a s (memWrite a v s)

/-- PMRead inside and outside program memory; the word read outside decodes to NOP (R61). -/
def Obligations.ProgramFetchContract : Prop :=
  ∀ (s : State) (a : Word),
    (a.toNat < 256 → pmRead s a = Memory.lookup s.pm a.toNat) ∧
    (256 ≤ a.toNat → pmRead s a = 0#32 ∧ decode (pmRead s a) = .ok .nop)

/-- Push and Pop, the full and the empty stack included (R77, R78). -/
def Obligations.StackPushPopContract : Prop :=
  ∀ (st : Stack) (v : Word), pushed v st (st.push v) ∧ popped st.pop.1 st st.pop.2

/-- The stack after Reset is empty with every cell zero, and pushes that all find room come back from as many pops in
exact reverse order, the pointer where it was (R79). -/
def Obligations.StackResetAndLifo : Prop :=
  (∀ s : State, (resetMachine s).stack.sp.val = 1024 ∧ ∀ a, Memory.lookup (resetMachine s).stack.cells a = 0#32) ∧
  ∀ (ws : List Word) (st : Stack), ws.length ≤ st.sp.val →
    (Stack.popMany ws.length (Stack.pushAll ws st)).1 = ws.reverse ∧
    (Stack.popMany ws.length (Stack.pushAll ws st)).2.sp = st.sp

/-! ## Data movement and memory transfer -/

/-- LDI, MOV and CLR: the destination's new value, nothing else (R171, R172, R177). -/
def Obligations.LdiMovClrResult : Prop :=
  decodesTo 0x01 (fun a b => .ldi (regOf a) b) ∧ decodesTo 0x02 (fun a b => .mov (regOf a) (regOf b)) ∧
  decodesTo 0x07 (fun a _ => .clr (regOf a)) ∧
  ∀ (s : State) (rd rs : Reg) (k : BitVec 16),
    (∃ t, exec (.ldi rd k) s = .next t ∧ t.reg rd = BitVec.ofNat 32 k.toNat ∧ onlyReg rd s t) ∧
    (∃ t, exec (.mov rd rs) s = .next t ∧ t.reg rd = s.reg rs ∧ onlyReg rd s t) ∧
    (∃ t, exec (.clr rd) s = .next t ∧ t.reg rd = 0#32 ∧ onlyReg rd s t)

/-- NOP: its words, no effect of its own, and the step it still takes: pc advanced by its FETCH tick, the boundary step
behind it (R170). That a step is one InstrStep with the host's inputs read from a list is the model's choice (log 3, 4). -/
def Obligations.NopStepOnlyAdvancesPc : Prop :=
  decodesTo 0x00 (fun _ _ => .nop) ∧ (∀ s : State, exec .nop s = .next s) ∧
  ∀ s : State, s.execState = .fetch → noRst 3 s → decode (pmRead s s.pc) = .ok .nop →
    step s = .next (boundary ((atExecute s).setExecState .fetch)) ∧ (atExecute s).pc = s.pc + 1 ∧
    keepsRegs s (atExecute s) ∧ (atExecute s).sr = s.sr ∧ keepsData s (atExecute s) ∧
    (atExecute s).stack = s.stack

/-- OUT: a plain write of the addressed I/O cell, but at address 2 PORT0 is XORed and PIN0 not written; the new value is on
port_out and ddr_out; nothing else changes (R173). -/
def Obligations.OutResult : Prop :=
  decodesTo 0x03 (fun a b => .out a (regOf b)) ∧
  ∀ (s : State) (a : BitVec 8) (rs : Reg), ∃ t, exec (.out a rs) s = .next t ∧
    (a = 2#8 → memRead t 1 = memRead s 1 ^^^ s.reg rs ∧ t.portOut 0 = s.portOut 0 ^^^ s.reg rs ∧
      memRead t 2 = memRead s 2 ∧ onlyCell 1 s t) ∧
    (a ≠ 2#8 → memRead t a.toNat = s.reg rs ∧ onlyCell a.toNat s t) ∧
    (∀ n : Port, t.ddrOut n = memRead t (3 * n.val) ∧ t.portOut n = memRead t (3 * n.val + 1))

/-- IN and LDS: the cell at op2, or at 256 + op2, and 0 beyond data memory; no read side effect (R174, R176). -/
def Obligations.InLdsResult : Prop :=
  decodesTo 0x04 (fun a b => .in_ (regOf a) b) ∧ decodesTo 0x06 (fun a b => .lds (regOf a) b) ∧
  ∀ (s : State) (rd : Reg) (k : BitVec 16),
    (∃ t, exec (.in_ rd k) s = .next t ∧ onlyReg rd s t ∧
      (k.toNat < 512 → t.reg rd = Memory.lookup s.dm k.toNat) ∧ (512 ≤ k.toNat → t.reg rd = 0#32)) ∧
    (∃ t, exec (.lds rd k) s = .next t ∧ onlyReg rd s t ∧
      (k.toNat < 256 → t.reg rd = Memory.lookup s.dm (256 + k.toNat)) ∧ (256 ≤ k.toNat → t.reg rd = 0#32))

/-- STS: the cell at 256 + op1 receives the register, always inside the data region; nothing else changes (R175). -/
def Obligations.StsResult : Prop :=
  decodesTo 0x05 (fun a b => .sts a (regOf b)) ∧
  ∀ (s : State) (a : BitVec 8) (rs : Reg), ∃ t, exec (.sts a rs) s = .next t ∧
    256 ≤ 256 + a.toNat ∧ 256 + a.toNat < 512 ∧ memRead t (256 + a.toNat) = s.reg rs ∧ onlyCell (256 + a.toNat) s t

/-- No store leaves its half: OUT never changes a cell of the data region, STS never one of the I/O sub-range (R72). -/
def Obligations.StoresKeepToTheirHalf : Prop :=
  ∀ (s : State) (a : BitVec 8) (rs : Reg),
    (∃ t, exec (.out a rs) s = .next t ∧ ∀ b, 256 ≤ b → memRead t b = memRead s b) ∧
    (∃ t, exec (.sts a rs) s = .next t ∧ ∀ b, b < 256 → memRead t b = memRead s b)

/-! ## Logic, arithmetic, compare, shift -/

/-- ORI, ANDI and XORI with the zero-extended constant: result, all five flags, nothing else (R191, R192, R193). -/
def Obligations.BitwiseImmediateResult : Prop :=
  decodesTo 0x08 (fun a b => .ori (regOf a) b) ∧ decodesTo 0x09 (fun a b => .andi (regOf a) b) ∧
  decodesTo 0x0A (fun a b => .xori (regOf a) b) ∧
  ∀ (s : State) (rd : Reg) (k : BitVec 16),
    (∃ t, exec (.ori rd k) s = .next t ∧ t.reg rd = s.reg rd ||| BitVec.ofNat 32 k.toNat ∧
      flagsAfterBitwise (s.reg rd ||| BitVec.ofNat 32 k.toNat) t ∧ onlyRegAndFlags rd s t) ∧
    (∃ t, exec (.andi rd k) s = .next t ∧ t.reg rd = s.reg rd &&& BitVec.ofNat 32 k.toNat ∧
      flagsAfterBitwise (s.reg rd &&& BitVec.ofNat 32 k.toNat) t ∧ t.flagN = false ∧ t.flagS = false ∧
      onlyRegAndFlags rd s t) ∧
    (∃ t, exec (.xori rd k) s = .next t ∧ t.reg rd = s.reg rd ^^^ BitVec.ofNat 32 k.toNat ∧
      flagsAfterBitwise (s.reg rd ^^^ BitVec.ofNat 32 k.toNat) t ∧ onlyRegAndFlags rd s t)

/-- OR, AND and XOR of two registers, the same register twice included (R194, R195, R196). -/
def Obligations.BitwiseRegisterResult : Prop :=
  decodesTo 0x0B (fun a b => .orr (regOf a) (regOf b)) ∧ decodesTo 0x0C (fun a b => .andr (regOf a) (regOf b)) ∧
  decodesTo 0x0D (fun a b => .xorr (regOf a) (regOf b)) ∧
  ∀ (s : State) (rd rs : Reg),
    (∃ t, exec (.orr rd rs) s = .next t ∧ t.reg rd = s.reg rd ||| s.reg rs ∧
      flagsAfterBitwise (s.reg rd ||| s.reg rs) t ∧ onlyRegAndFlags rd s t) ∧
    (∃ t, exec (.andr rd rs) s = .next t ∧ t.reg rd = s.reg rd &&& s.reg rs ∧
      flagsAfterBitwise (s.reg rd &&& s.reg rs) t ∧ onlyRegAndFlags rd s t) ∧
    (∃ t, exec (.xorr rd rs) s = .next t ∧ t.reg rd = s.reg rd ^^^ s.reg rs ∧
      flagsAfterBitwise (s.reg rd ^^^ s.reg rs) t ∧ onlyRegAndFlags rd s t)

/-- ADDI, ADD, SUBI and SUB: the wrapped result, carry or borrow, overflow, N, Z, S, nothing else; no carry-in (R197 to
R200). -/
def Obligations.AddSubResult : Prop :=
  decodesTo 0x0E (fun a b => .addi (regOf a) b) ∧ decodesTo 0x0F (fun a b => .subi (regOf a) b) ∧
  decodesTo 0x10 (fun a b => .add (regOf a) (regOf b)) ∧ decodesTo 0x11 (fun a b => .sub (regOf a) (regOf b)) ∧
  ∀ (s : State) (rd rs : Reg) (k : BitVec 16),
    (∃ t, exec (.addi rd k) s = .next t ∧ t.reg rd = s.reg rd + BitVec.ofNat 32 k.toNat ∧
      flagsAfterAdd (s.reg rd) (BitVec.ofNat 32 k.toNat) t ∧ onlyRegAndFlags rd s t) ∧
    (∃ t, exec (.add rd rs) s = .next t ∧ t.reg rd = s.reg rd + s.reg rs ∧
      flagsAfterAdd (s.reg rd) (s.reg rs) t ∧ onlyRegAndFlags rd s t) ∧
    (∃ t, exec (.subi rd k) s = .next t ∧ t.reg rd = s.reg rd - BitVec.ofNat 32 k.toNat ∧
      flagsAfterSub (s.reg rd) (BitVec.ofNat 32 k.toNat) t ∧ onlyRegAndFlags rd s t) ∧
    (∃ t, exec (.sub rd rs) s = .next t ∧ t.reg rd = s.reg rd - s.reg rs ∧
      flagsAfterSub (s.reg rd) (s.reg rs) t ∧ onlyRegAndFlags rd s t)

/-- INC and DEC write every flag, C included, and are exactly ADDI and SUBI with constant 1 (R201, R202). -/
def Obligations.IncDecResult : Prop :=
  decodesTo 0x12 (fun a _ => .inc (regOf a)) ∧ decodesTo 0x13 (fun a _ => .dec (regOf a)) ∧
  ∀ (s : State) (rd : Reg),
    (∃ t, exec (.inc rd) s = .next t ∧ t.reg rd = s.reg rd + 1#32 ∧ flagsAfterAdd (s.reg rd) 1#32 t ∧
      onlyRegAndFlags rd s t ∧ exec (.addi rd 1) s = .next t) ∧
    (∃ t, exec (.dec rd) s = .next t ∧ t.reg rd = s.reg rd - 1#32 ∧ flagsAfterSub (s.reg rd) 1#32 t ∧
      onlyRegAndFlags rd s t ∧ exec (.subi rd 1) s = .next t)

/-- CPI and CP: the flags of the subtraction and no register at all; SUBI and SUB would leave the same status register
(R203, R204). -/
def Obligations.CompareResult : Prop :=
  decodesTo 0x14 (fun a b => .cpi (regOf a) b) ∧ decodesTo 0x15 (fun a b => .cp (regOf a) (regOf b)) ∧
  ∀ (s : State) (rd rs : Reg) (k : BitVec 16),
    (∃ t u, exec (.cpi rd k) s = .next t ∧ flagsAfterSub (s.reg rd) (BitVec.ofNat 32 k.toNat) t ∧
      t.reg rd = s.reg rd ∧ onlyRegAndFlags rd s t ∧ exec (.subi rd k) s = .next u ∧ t.sr = u.sr) ∧
    (∃ t u, exec (.cp rd rs) s = .next t ∧ flagsAfterSub (s.reg rd) (s.reg rs) t ∧
      t.reg rd = s.reg rd ∧ onlyRegAndFlags rd s t ∧ exec (.sub rd rs) s = .next u ∧ t.sr = u.sr)

/-- LSL and LSR: one place, zero in, the bit shifted out lost, no flag (R205, R206). -/
def Obligations.ShiftResult : Prop :=
  decodesTo 0x22 (fun a _ => .lsl (regOf a)) ∧ decodesTo 0x23 (fun a _ => .lsr (regOf a)) ∧
  ∀ (s : State) (rd : Reg),
    (∃ t, exec (.lsl rd) s = .next t ∧ (t.reg rd).toNat = 2 * (s.reg rd).toNat % 2 ^ 32 ∧
      (∀ k, k < 31 → (t.reg rd).getLsbD (k + 1) = (s.reg rd).getLsbD k) ∧ (t.reg rd).getLsbD 0 = false ∧
      onlyReg rd s t) ∧
    (∃ t, exec (.lsr rd) s = .next t ∧ (t.reg rd).toNat = (s.reg rd).toNat / 2 ∧
      (∀ k, k < 31 → (t.reg rd).getLsbD k = (s.reg rd).getLsbD (k + 1)) ∧ (t.reg rd).getLsbD 31 = false ∧
      onlyReg rd s t)

/-! ## Control transfer -/

/-- JMP and the six branches: where pc goes, taken or not, and that nothing but pc changes (R221 to R227). -/
def Obligations.JumpAndBranchResult : Prop :=
  decodesTo 0x16 (fun a _ => .jmp a) ∧ decodesTo 0x17 (fun a _ => .breq a) ∧ decodesTo 0x18 (fun a _ => .brne a) ∧
  decodesTo 0x19 (fun a _ => .brge a) ∧ decodesTo 0x1A (fun a _ => .brgt a) ∧ decodesTo 0x1B (fun a _ => .brle a) ∧
  decodesTo 0x1C (fun a _ => .brlt a) ∧
  ∀ (s : State) (x : BitVec 8),
    (∃ t, exec (.jmp x) s = .next t ∧ t.pc = BitVec.ofNat 32 x.toNat ∧ onlyPc s t) ∧
    (∃ t, exec (.breq x) s = .next t ∧ t.pc = (if s.flagZ = true then BitVec.ofNat 32 x.toNat else s.pc) ∧
      onlyPc s t) ∧
    (∃ t, exec (.brne x) s = .next t ∧ t.pc = (if s.flagZ = false then BitVec.ofNat 32 x.toNat else s.pc) ∧
      onlyPc s t) ∧
    (∃ t, exec (.brge x) s = .next t ∧ t.pc = (if s.flagS = false then BitVec.ofNat 32 x.toNat else s.pc) ∧
      onlyPc s t) ∧
    (∃ t, exec (.brgt x) s = .next t ∧
      t.pc = (if s.flagS = false ∧ s.flagZ = false then BitVec.ofNat 32 x.toNat else s.pc) ∧ onlyPc s t) ∧
    (∃ t, exec (.brle x) s = .next t ∧
      t.pc = (if s.flagS = true ∨ s.flagZ = true then BitVec.ofNat 32 x.toNat else s.pc) ∧ onlyPc s t) ∧
    (∃ t, exec (.brlt x) s = .next t ∧ t.pc = (if s.flagS = true then BitVec.ofNat 32 x.toNat else s.pc) ∧
      onlyPc s t)

/-- BRGT and BRLE, BRGE and BRLT, BREQ and BRNE are complements: for every status register exactly one of each pair goes to
its target, the other leaves pc (R231). -/
def Obligations.BranchPredicatesComplement : Prop :=
  ∀ (s : State) (x : BitVec 8) (i j : Instr),
    (i = .brgt x ∧ j = .brle x) ∨ (i = .brge x ∧ j = .brlt x) ∨ (i = .breq x ∧ j = .brne x) →
    ∃ t u, exec i s = .next t ∧ exec j s = .next u ∧
      ((t = s ∧ u.pc = BitVec.ofNat 32 x.toNat) ∨ (u = s ∧ t.pc = BitVec.ofNat 32 x.toNat))

/-- CALL: the return address pushed, or lost on a full stack, and the jump taken either way (R228). -/
def Obligations.CallResult : Prop :=
  decodesTo 0x1D (fun a _ => .call a) ∧
  ∀ (s : State) (x : BitVec 8), ∃ t, exec (.call x) s = .next t ∧ t.pc = BitVec.ofNat 32 x.toNat ∧
    pushed s.pc s.stack t.stack ∧ onlyPcAndStack s t

/-- RET: pc is the popped word, all of it, 0 from an empty stack; no flag (R229). -/
def Obligations.RetResult : Prop :=
  decodesTo 0x1E (fun _ _ => .ret) ∧
  ∀ s : State, ∃ t, exec .ret s = .next t ∧ popped t.pc s.stack t.stack ∧ onlyPcAndStack s t

/-- A stack-balanced subroutine comes back: after CALL with room on the stack, in any later state whose pointer is where CALL
left it and whose cells from there up are untouched, RET returns to the instruction after the CALL; the cells below the
pointer, which pushes and pops in between change, are not asked about (R228, R229, R230). -/
def Obligations.CallThenRetReturns : Prop :=
  ∀ (s t u : State) (x : BitVec 8), s.stack.sp.val ≠ 0 → exec (.call x) s = .next t → u.stack.sp = t.stack.sp →
    (∀ a, u.stack.sp.val ≤ a → Memory.lookup u.stack.cells a = Memory.lookup t.stack.cells a) →
    ∃ v, exec .ret u = .next v ∧ v.pc = s.pc ∧ v.stack.sp = s.stack.sp ∧
      ∀ a, s.stack.sp.val ≤ a → Memory.lookup v.stack.cells a = Memory.lookup s.stack.cells a

/-! ## Stack and system -/

/-- PUSH and POP: the word on the stack or dropped, the top word or 0; no flag (R240, R241). -/
def Obligations.PushPopResult : Prop :=
  decodesTo 0x20 (fun a _ => .push (regOf a)) ∧ decodesTo 0x21 (fun a _ => .pop (regOf a)) ∧
  ∀ (s : State) (r : Reg),
    (∃ t, exec (.push r) s = .next t ∧ pushed (s.reg r) s.stack t.stack ∧ keepsRegs s t ∧ t.sr = s.sr ∧
      t.pc = s.pc ∧ keepsData s t ∧ keepsRest s t) ∧
    (∃ t, exec (.pop r) s = .next t ∧ popped (t.reg r) s.stack t.stack ∧ keepsRegsBut r s t ∧ t.sr = s.sr ∧
      t.pc = s.pc ∧ keepsData s t ∧ keepsRest s t)

/-- SEI and CLI: flag I alone (R243, R244). -/
def Obligations.SeiCliResult : Prop :=
  decodesTo 0x24 (fun _ _ => .sei) ∧ decodesTo 0x25 (fun _ _ => .cli) ∧
  ∀ s : State,
    (∃ t, exec .sei s = .next t ∧ t.flagI = true ∧ t.aluFlags = s.aluFlags ∧ keepsRegs s t ∧ t.pc = s.pc ∧
      t.stack = s.stack ∧ keepsData s t ∧ keepsRest s t) ∧
    (∃ t, exec .cli s = .next t ∧ t.flagI = false ∧ t.aluFlags = s.aluFlags ∧ keepsRegs s t ∧ t.pc = s.pc ∧
      t.stack = s.stack ∧ keepsData s t ∧ keepsRest s t)

/-- SEI and CLI act at their own boundary: behind SEI a pending enabled source is dispatched at once, behind CLI none is, and
its flag stays pending (R243, R244). -/
def Obligations.SeiCliActAtOwnBoundary : Prop :=
  ∀ s : State,
    (∃ t, exec .sei s = .next t ∧ ∀ n : Port, (memRead s 9).getLsbD n.val = true → pendingAfter s n = true →
      ∃ m : Port, m ≤ n ∧ (boundary (t.setExecState .fetch)).pc = BitVec.ofNat 32 (2 + 2 * m.val)) ∧
    (∃ t, exec .cli s = .next t ∧ (boundary (t.setExecState .fetch)).pc = t.pc ∧
      (boundary (t.setExecState .fetch)).stack = t.stack ∧
      ∀ n : Port, pendingAfter s n = true → (memRead (boundary (t.setExecState .fetch)) 10).getLsbD n.val = true)

/-- RETI on a stack holding at least 42 words: every item comes from its context word, cut to its width, I is set, the pointer
moves up by 42; data memory, program, LFA and the cells stay (R242, R275). -/
def Obligations.RetiRestoresContext : Prop :=
  decodesTo 0x1F (fun _ _ => .reti) ∧
  ∀ s : State, s.stack.sp.val + 42 ≤ 1024 → ∃ t, exec .reti s = .next t ∧
    t.pc = Memory.lookup s.stack.cells (s.stack.sp.val + 41) ∧
    t.ir = Memory.lookup s.stack.cells (s.stack.sp.val + 40) ∧
    t.flagI = true ∧
    (∀ k, k < 5 → t.sr.getLsbD k = (Memory.lookup s.stack.cells (s.stack.sp.val + 39)).getLsbD k) ∧
    t.opc.toNat = (Memory.lookup s.stack.cells (s.stack.sp.val + 38)).toNat % 2 ^ 8 ∧
    t.op1.toNat = (Memory.lookup s.stack.cells (s.stack.sp.val + 37)).toNat % 2 ^ 8 ∧
    t.op2.toNat = (Memory.lookup s.stack.cells (s.stack.sp.val + 36)).toNat % 2 ^ 16 ∧
    ((Memory.lookup s.stack.cells (s.stack.sp.val + 35)).toNat % 4 ≠ 3 →
      t.execState.bits.toNat = (Memory.lookup s.stack.cells (s.stack.sp.val + 35)).toNat % 4) ∧
    (∀ k : Port, t.prev.get k = Memory.lookup s.stack.cells (s.stack.sp.val + 34 - k.val)) ∧
    (∀ r : Reg, t.reg r = Memory.lookup s.stack.cells (s.stack.sp.val + 31 - r.val)) ∧
    t.stack.sp.val = s.stack.sp.val + 42 ∧ t.stack.cells = s.stack.cells ∧
    keepsData s t ∧ t.lfa = s.lfa ∧ t.pm = s.pm ∧ t.pinIn = s.pinIn ∧ t.inputs = s.inputs

/-- RETI with fewer than 42 words on the stack completes too: each of the 42 items is its cell, or 0 where the pops find the
stack empty, cut to its width, so pc is always 0; on an empty stack everything restored is 0 and SR is 0x20. The stack cells,
data memory, program, LFA and the host's side stay (R242 corner case 4, R275). A STATE word of 3 is left unsaid (log 11). -/
def Obligations.RetiShortStack : Prop :=
  ∀ s : State, 1024 < s.stack.sp.val + 42 → ∃ t, exec .reti s = .next t ∧
    t.pc = 0#32 ∧ t.pc = wordAbove 41 s.stack ∧ t.ir = wordAbove 40 s.stack ∧ t.flagI = true ∧
    (∀ k, k < 5 → t.sr.getLsbD k = (wordAbove 39 s.stack).getLsbD k) ∧
    t.opc.toNat = (wordAbove 38 s.stack).toNat % 2 ^ 8 ∧ t.op1.toNat = (wordAbove 37 s.stack).toNat % 2 ^ 8 ∧
    t.op2.toNat = (wordAbove 36 s.stack).toNat % 2 ^ 16 ∧
    ((wordAbove 35 s.stack).toNat % 4 ≠ 3 → t.execState.bits.toNat = (wordAbove 35 s.stack).toNat % 4) ∧
    (∀ k : Port, t.prev.get k = wordAbove (34 - k.val) s.stack) ∧
    (∀ r : Reg, t.reg r = wordAbove (31 - r.val) s.stack) ∧
    (s.stack.sp.val = 1024 → (∀ r : Reg, t.reg r = 0#32) ∧ (∀ k : Port, t.prev.get k = 0#32) ∧ t.ir = 0#32 ∧
      t.opc = 0#8 ∧ t.op1 = 0#8 ∧ t.op2 = 0#16 ∧ t.execState = .fetch ∧ t.sr = 0x20#6) ∧
    t.stack.sp.val = 1024 ∧ t.stack.cells = s.stack.cells ∧
    keepsData s t ∧ t.lfa = s.lfa ∧ t.pm = s.pm ∧ t.pinIn = s.pinIn ∧ t.inputs = s.inputs

/-! ## Who may write what -/

/-- A general register changes only as an instruction's destination, or by RETI (R22). -/
def Obligations.RegistersChangeOnlyAsDestination : Prop :=
  ∀ (i : Instr) (s t : State) (r : Reg), exec i s = .next t → i ≠ .reti → destReg i ≠ some r → t.reg r = s.reg r

/-- S N Z V C change only by the fourteen ALU instructions and RETI, and I only by SEI, CLI and RETI (R28, the instructions). -/
def Obligations.FlagsChangeOnlyByTheirWriters : Prop :=
  ∀ (i : Instr) (s t : State), exec i s = .next t → i ≠ .reti →
    (writesAluFlags i = false → t.aluFlags = s.aluFlags) ∧ (i ≠ .sei → i ≠ .cli → t.flagI = s.flagI)

/-- pc changes only by the jumps, branches, CALL, RET and RETI (R24), and the stack only by CALL, RET, PUSH, POP and RETI
(R60). -/
def Obligations.PcAndStackChangeOnlyByTheirWriters : Prop :=
  ∀ (i : Instr) (s t : State), exec i s = .next t →
    (writesPc i = false → t.pc = s.pc) ∧ (usesStack i = false → t.stack = s.stack)

/-- The flag law S = N xor V holds after reset and is kept by every instruction but RETI and by every boundary step (R27). -/
def Obligations.SignLawKeptButByReti : Prop :=
  State.reset.signLaw ∧
  (∀ (i : Instr) (s t : State), s.signLaw → exec i s = .next t → i ≠ .reti → t.signLaw) ∧
  ∀ s : State, s.signLaw → (boundary s).signLaw

/-- N, V and C are read by no instruction and by no dispatch decision: two machines that differ in them alone do the same, but
for the status register itself (R29). -/
def Obligations.NegativeOverflowCarryNotRead : Prop :=
  ∀ (i : Instr) (s t : State) (v : BitVec 6), exec i s = .next t →
    v.getLsbD 5 = s.flagI → v.getLsbD 4 = s.flagS → v.getLsbD 2 = s.flagZ →
    ∃ u, exec i (s.setSr v) = .next u ∧ u = t.setSr u.sr ∧ u.flagI = t.flagI ∧ u.flagS = t.flagS ∧
      u.flagZ = t.flagZ ∧ ∀ n : Port, mayDispatch u n = mayDispatch t n

/-! ## The cycle -/

/-- Every instruction completes in every state: no fault, no refusal (R156). -/
def Obligations.EveryInstructionCompletes : Prop :=
  ∀ (i : Instr) (s : State), ∃ t, exec i s = .next t

/-- No run of any length meets a fault or a refusal: nothing but the decode error is fatal, and its effect is a reset (R261). -/
def Obligations.EveryRunIsSafe : Prop :=
  ∀ (k : Nat) (s : State), s.safeFor k

/-- When the word at pc decodes to an instruction, one step from FETCH with no rst in its three edges is that instruction's
Operation in the state after FETCH and DECODE, then STATE back to FETCH and the boundary step (R152 to R155, R158). The
step and the list of host inputs are the model's choice (log 3, 4). -/
def Obligations.StepRunsDecodedInstruction : Prop :=
  ∀ (s : State) (i : Instr), s.execState = .fetch → noRst 3 s → decode (pmRead s s.pc) = .ok i →
    ∃ t, exec i (atExecute s) = .next t ∧ step s = .next (boundary (t.setExecState .fetch))

/-- The FETCH and the DECODE tick, field by field, wrap-around of pc included (R152, R153, R25). -/
def Obligations.FetchAndDecodeTicks : Prop :=
  ∀ s : State,
    (s.execState = .fetch → ∃ t, tick s = .next t ∧ t.ir = pmRead s s.pc ∧ t.lfa = s.pc ∧
      t.pc.toNat = (s.pc.toNat + 1) % 2 ^ 32 ∧ t.execState = .decode ∧ keepsRegs s t ∧ t.sr = s.sr ∧
      t.opc = s.opc ∧ t.op1 = s.op1 ∧ t.op2 = s.op2 ∧ t.prev = s.prev ∧ t.pm = s.pm ∧ keepsData s t ∧
      t.stack = s.stack ∧ t.pinIn = s.pinIn ∧ t.inputs = s.inputs) ∧
    (s.execState = .decode → ∃ t, tick s = .next t ∧
      s.ir.toNat = t.opc.toNat * 2 ^ 24 + t.op1.toNat * 2 ^ 16 + t.op2.toNat ∧ t.execState = .execute ∧
      t.ir = s.ir ∧ t.lfa = s.lfa ∧ t.pc = s.pc ∧ keepsRegs s t ∧ t.sr = s.sr ∧ t.prev = s.prev ∧ t.pm = s.pm ∧
      keepsData s t ∧ t.stack = s.stack ∧ t.pinIn = s.pinIn ∧ t.inputs = s.inputs)

/-- A run past the end of program memory fetches NOP_WORD: one step there only moves pc on, modulo 2^32, and runs the boundary
step; from the last address pc goes to 0 (R25, R61; the step and the list of host inputs are the model's, log 3, 4). -/
def Obligations.BeyondProgramMemoryRunsNop : Prop :=
  ∀ s : State, s.execState = .fetch → noRst 3 s → 256 ≤ s.pc.toNat →
    step s = .next (boundary ((atExecute s).setExecState .fetch)) ∧
    (atExecute s).pc.toNat = (s.pc.toNat + 1) % 2 ^ 32 ∧ (s.pc = 0xFFFFFFFF#32 → (atExecute s).pc = 0#32) ∧
    keepsRegs s (atExecute s) ∧ (atExecute s).sr = s.sr ∧ keepsData s (atExecute s) ∧
    (atExecute s).stack = s.stack

/-- With no rst, a step is three ticks from FETCH, two from DECODE, one from EXECUTE, each after the host's inputs of its edge
(R160; the list of host inputs is the model's, log 4). -/
def Obligations.StepIsTheRemainingTicks : Prop :=
  ∀ s : State,
    (s.execState = .execute → noRst 1 s → step s = clockEdge s) ∧
    (s.execState = .decode → noRst 2 s → ∃ t, clockEdge s = .next t ∧ step s = clockEdge t) ∧
    (s.execState = .fetch → noRst 3 s → ∃ t u, clockEdge s = .next t ∧ clockEdge t = .next u ∧ step s = clockEdge u)

/-- Whatever STATE and the inputs were, a step ends with STATE at FETCH, after a decode error and a reset too (R160; that rst
ends the step is the model's, log 7). -/
def Obligations.StepEndsInFetch : Prop :=
  ∀ s : State, ∃ t, step s = .next t ∧ t.execState = .fetch

/-- rst at a clock edge makes that edge a reset and no tick, whatever STATE is (R162). That it ends the model's step, and that
the inputs come from a list, is the model's (log 4, 7). -/
def Obligations.ResetInputOverridesTick : Prop :=
  ∀ s : State, rstAsserted s = true →
    clockEdge s = .next (resetMachine (presentInputs s)) ∧ step s = .next (resetMachine (presentInputs s))

/-- A word with an unrecognised opcode resets the machine in its EXECUTE tick, with no boundary step: the state is the reset
state, the program kept and the pins not sampled, and is what an explicit reset of the same machine gives (R260, R157; the
model takes it as a next state, log 14, in its own step, log 3, 4). -/
def Obligations.DecodeErrorIsFullReset : Prop :=
  (∀ s : State, s.execState = .execute → 0x25 < s.opc.toNat → tick s = .next (resetMachine s)) ∧
  ∀ s : State, s.execState = .fetch → noRst 3 s → 0x26000000 ≤ (pmRead s s.pc).toNat →
    ∃ t, step s = .next t ∧ t = resetMachine (atExecute s) ∧ (∀ r : Reg, t.reg r = 0#32) ∧ t.pc = 0#32 ∧ t.sr = 0#6 ∧
      t.ir = 0#32 ∧ t.opc = 0#8 ∧ t.op1 = 0#8 ∧ t.op2 = 0#16 ∧ t.execState = .fetch ∧
      (∀ k : Port, t.prev.get k = 0#32) ∧ t.lfa = 0#32 ∧ (∀ a, memRead t a = 0#32) ∧ t.stack.sp.val = 1024 ∧ t.pm = s.pm

/-- Reset puts every piece of state at its reset value and keeps the program; the reset state itself has the same values
(R44, R300, R301). -/
def Obligations.ResetValues : Prop :=
  ∀ s t : State, t = resetMachine s ∨ t = State.reset →
    (∀ r : Reg, t.reg r = 0#32) ∧ t.pc = 0#32 ∧ t.sr = 0#6 ∧ t.ir = 0#32 ∧ t.opc = 0#8 ∧ t.op1 = 0#8 ∧ t.op2 = 0#16 ∧
    t.execState = .fetch ∧ (∀ k : Port, t.prev.get k = 0#32) ∧ t.lfa = 0#32 ∧ (∀ a, memRead t a = 0#32) ∧
    t.stack.sp.val = 1024 ∧ (∀ a, Memory.lookup t.stack.cells a = 0#32) ∧ (t = resetMachine s → t.pm = s.pm)

/-- No step writes program memory, a reset included (R62). -/
def Obligations.ProgramMemoryNeverWritten : Prop :=
  ∀ (s t : State), step s = .next t → t.pm = s.pm

/-- LFA is read by nothing: from two machines that differ in it alone, a step reaches two machines that differ in it at
most (R34). -/
def Obligations.DiagnosticAddressNotRead : Prop :=
  ∀ (s t : State) (v : Word), step s = .next t →
    ∃ u, step { s with lfa := v } = .next u ∧ u = { t with lfa := u.lfa }

/-! ## Interrupts -/

/-- The boundary step samples every port into PINn and PREV and raises IFR's bit for a changed masked pin, whatever I and ICR
hold; every cell but PINn and IFR stays, IFR's bits from 3 up stay, and so do every register, S N Z V C, IR, the latches,
STATE, LFA, program memory and the host's side, dispatch or not. Without a dispatch the sources' IFR bits are those pending,
and SR, pc and the stack stay (R265, R266, R267). -/
def Obligations.BoundarySamplesAndDetects : Prop :=
  ∀ s : State,
    (∀ n : Port, memRead (boundary s) (3 * n.val + 2) = s.pinIn.get n ∧ (boundary s).prev.get n = s.pinIn.get n) ∧
    (∀ a, a ≠ 2 → a ≠ 5 → a ≠ 8 → a ≠ 10 → memRead (boundary s) a = memRead s a) ∧
    (∀ k, 3 ≤ k → (memRead (boundary s) 10).getLsbD k = (memRead s 10).getLsbD k) ∧
    keepsRegs s (boundary s) ∧ (boundary s).aluFlags = s.aluFlags ∧
    (boundary s).ir = s.ir ∧ (boundary s).opc = s.opc ∧ (boundary s).op1 = s.op1 ∧ (boundary s).op2 = s.op2 ∧
    (boundary s).execState = s.execState ∧ (boundary s).lfa = s.lfa ∧ (boundary s).pm = s.pm ∧
    (boundary s).pinIn = s.pinIn ∧ (boundary s).inputs = s.inputs ∧
    ((∀ n : Port, mayDispatch s n = false) →
      (∀ n : Port, (memRead (boundary s) 10).getLsbD n.val = pendingAfter s n) ∧
      (boundary s).sr = s.sr ∧ (boundary s).pc = s.pc ∧ (boundary s).stack = s.stack)

/-- The boundary step dispatches a source when I, its enable bit and its pending bit are all set after this boundary's own edge
detection; of several it takes the lowest, one only, and the others stay pending. It is then the dispatch of that
source from the sampled and detected state: the whole context on the stack with I set in the saved SR and PREV the new
sample, or as much of it as finds room; every other stack cell as before. What it leaves otherwise is said for every boundary
step by BoundarySamplesAndDetects (R268, R269, R270, R271, R273). -/
def Obligations.BoundaryDispatchesLowestEligible : Prop :=
  ∀ (s : State) (n : Port), mayDispatch s n = true → (∀ m : Port, m < n → mayDispatch s m = false) →
    boundary s = dispatchInterrupt n (detectEdges (samplePins s)) ∧
    (boundary s).pc = BitVec.ofNat 32 (2 + 2 * n.val) ∧ (boundary s).flagI = false ∧
    contextPushed s s.pinIn (boundary s).stack ∧
    (2 < s.stack.sp.val → (Memory.lookup (boundary s).stack.cells (s.stack.sp.val - 3)).getLsbD 5 = true) ∧
    (memRead (boundary s) 10).getLsbD n.val = false ∧
    ∀ m : Port, m ≠ n → (memRead (boundary s) 10).getLsbD m.val = pendingAfter s m

/-- A dispatch with at least 42 free cells: the 42 context words in their order at the cells below the old pointer, every cell
above left alone, the source's pending bit cleared, I cleared, pc at the vector, nothing else changed (R270, R271). -/
def Obligations.DispatchSavesContext : Prop :=
  ∀ (s t : State) (n : Port), t = dispatchInterrupt n s → 42 ≤ s.stack.sp.val →
    t.stack.sp.val = s.stack.sp.val - 42 ∧
    Memory.lookup t.stack.cells (s.stack.sp.val - 1) = s.pc ∧
    Memory.lookup t.stack.cells (s.stack.sp.val - 2) = s.ir ∧
    (Memory.lookup t.stack.cells (s.stack.sp.val - 3)).toNat = s.sr.toNat ∧
    (Memory.lookup t.stack.cells (s.stack.sp.val - 4)).toNat = s.opc.toNat ∧
    (Memory.lookup t.stack.cells (s.stack.sp.val - 5)).toNat = s.op1.toNat ∧
    (Memory.lookup t.stack.cells (s.stack.sp.val - 6)).toNat = s.op2.toNat ∧
    (Memory.lookup t.stack.cells (s.stack.sp.val - 7)).toNat = s.execState.bits.toNat ∧
    (∀ k : Port, Memory.lookup t.stack.cells (s.stack.sp.val - 8 - k.val) = s.prev.get k) ∧
    (∀ r : Reg, Memory.lookup t.stack.cells (s.stack.sp.val - 11 - r.val) = s.reg r) ∧
    (∀ a, s.stack.sp.val ≤ a ∨ a < s.stack.sp.val - 42 → Memory.lookup t.stack.cells a = Memory.lookup s.stack.cells a) ∧
    (∀ k, (memRead t 10).getLsbD k = ((memRead s 10).getLsbD k && k != n.val)) ∧
    keepsDataBut 10 s t ∧ keepsRegs s t ∧ t.flagI = false ∧ t.aluFlags = s.aluFlags ∧
    t.pc = BitVec.ofNat 32 (2 + 2 * n.val) ∧ keepsRest s t

/-- A dispatch with too little stack: the context words that find room are pushed, the rest are dropped silently, and I, the
pending bit and pc are written all the same (R273). -/
def Obligations.DispatchDropsWhatFindsNoRoom : Prop :=
  ∀ (s t : State) (n : Port), t = dispatchInterrupt n s → s.stack.sp.val < 42 →
    t.stack.sp.val = 0 ∧
    (∀ j, j < s.stack.sp.val →
      Memory.lookup t.stack.cells (s.stack.sp.val - 1 - j) = (contextWords s).getD j 0#32) ∧
    (∀ a, s.stack.sp.val ≤ a → Memory.lookup t.stack.cells a = Memory.lookup s.stack.cells a) ∧
    t.flagI = false ∧ t.pc = BitVec.ofNat 32 (2 + 2 * n.val) ∧ (memRead t 10).getLsbD n.val = false ∧ keepsRegs s t

/-- Context symmetry: dispatch, then any handler that is at its RETI with the stack pointer where the dispatch left it and the
context above it untouched; RETI gives back pc, every register, the status register, IR, the latches, STATE, PREV and the
stack pointer of the moment before the dispatch; data memory is the handler's (R276). -/
def Obligations.ContextSymmetry : Prop :=
  ∀ (s u : State) (n : Port), s.headroom = true → s.flagI = true →
    u.stack.sp = (dispatchInterrupt n s).stack.sp →
    (∀ a, u.stack.sp.val ≤ a →
      Memory.lookup u.stack.cells a = Memory.lookup (dispatchInterrupt n s).stack.cells a) →
    ∃ t, exec .reti u = .next t ∧ t.pc = s.pc ∧ keepsRegs s t ∧ t.sr = s.sr ∧ t.ir = s.ir ∧ t.opc = s.opc ∧
      t.op1 = s.op1 ∧ t.op2 = s.op2 ∧ t.execState = s.execState ∧ t.prev = s.prev ∧ t.stack.sp = s.stack.sp ∧
      (∀ a, s.stack.sp.val ≤ a → Memory.lookup t.stack.cells a = Memory.lookup s.stack.cells a) ∧ keepsData u t

/-- Right after RETI, before any instruction of the interrupted program, a source that is enabled and still pending is
dispatched, and the pc it saves is the return address again (R277, first consequence). -/
def Obligations.RetiDispatchesPendingAtOnce : Prop :=
  ∀ (s : State) (n : Port), (memRead s 9).getLsbD n.val = true → (memRead s 10).getLsbD n.val = true →
    ∃ t, exec .reti s = .next t ∧ (∃ m : Port, m ≤ n ∧
      (boundary (t.setExecState .fetch)).pc = BitVec.ofNat 32 (2 + 2 * m.val)) ∧
      (t.stack.sp.val ≠ 0 → Memory.lookup (boundary (t.setExecState .fetch)).stack.cells (t.stack.sp.val - 1) = t.pc)

/-! ## The invariant -/

/-- Every step keeps the three memories in their canonical form, each within its size, from any such state (the model's data
form, log 13, of R36, R37, R41). -/
def Obligations.StepKeepsCanonicalMemories : Prop :=
  ∀ s t : State, s.wf = true → step s = .next t → t.wf = true

/-- The reset state's memories are in canonical form (the model's data form, log 13). -/
def Obligations.ResetHasCanonicalMemories : Prop :=
  State.reset.wf = true
end

