-- ==== Sys2Proof/Laws/Alu.lean ====
section
/-! SUPPORT. What ADD and SUB through one bit more come to: the wrapped result, and the top bit as carry or borrow
(40_alu.md R134, R135), at every width. -/

namespace Sys2Proof.Machine

variable {w : Nat} (a b : BitVec w)

/-- The extended width is twice the range. -/
theorem two_pow_extend (w : Nat) : 2 ^ (w + 1) = 2 * 2 ^ w := by
  rw [Nat.pow_succ]
  omega

/-- ADD's result is the wrapped sum (R134). -/
@[simp] theorem aluAdd_result : (aluAdd a b).1 = a + b := by
  apply BitVec.eq_of_toNat_eq
  have := a.isLt
  have := b.isLt
  have h := two_pow_extend w
  simp only [aluAdd, BitVec.toNat_setWidth, BitVec.toNat_add]
  rw [Nat.mod_eq_of_lt (by omega : a.toNat < 2 ^ (w + 1)), Nat.mod_eq_of_lt (by omega : b.toNat < 2 ^ (w + 1)),
    Nat.mod_eq_of_lt (by omega : a.toNat + b.toNat < 2 ^ (w + 1))]

/-- ADD's C is the carry out (R134). -/
theorem aluAdd_carry : (aluAdd a b).2.c = true ↔ 2 ^ w ≤ a.toNat + b.toNat := by
  have := a.isLt
  have := b.isLt
  have h := two_pow_extend w
  simp only [aluAdd, flagsOf, BitVec.getLsbD, BitVec.toNat_add, BitVec.toNat_setWidth]
  rw [Nat.mod_eq_of_lt (by omega : a.toNat < 2 ^ (w + 1)), Nat.mod_eq_of_lt (by omega : b.toNat < 2 ^ (w + 1)),
    Nat.mod_eq_of_lt (by omega : a.toNat + b.toNat < 2 ^ (w + 1)), Nat.testBit_eq_decide_div_mod_eq, decide_eq_true_eq]
  by_cases hc : 2 ^ w ≤ a.toNat + b.toNat
  · have : (a.toNat + b.toNat) / 2 ^ w = 1 := by rw [Nat.div_eq_iff (by omega)]; omega
    simp [this, hc]
  · simp [Nat.div_eq_of_lt (by omega : a.toNat + b.toNat < 2 ^ w), hc]

/-- SUB's result is the wrapped difference (R135). -/
@[simp] theorem aluSub_result : (aluSub a b).1 = a - b := by
  apply BitVec.eq_of_toNat_eq
  have := a.isLt
  have := b.isLt
  have h := two_pow_extend w
  simp only [aluSub, BitVec.toNat_setWidth, BitVec.toNat_sub]
  rw [Nat.mod_eq_of_lt (by omega : a.toNat < 2 ^ (w + 1)), Nat.mod_eq_of_lt (by omega : b.toNat < 2 ^ (w + 1)),
    Nat.mod_mod_of_dvd _ ⟨2, by omega⟩]
  have : 2 ^ (w + 1) - b.toNat + a.toNat = (2 ^ w - b.toNat + a.toNat) + 2 ^ w := by omega
  rw [this, Nat.add_mod_right]

/-- SUB's C is the borrow (R135). -/
theorem aluSub_borrow : (aluSub a b).2.c = true ↔ a.toNat < b.toNat := by
  have := a.isLt
  have := b.isLt
  have h := two_pow_extend w
  simp only [aluSub, flagsOf, BitVec.getLsbD, BitVec.toNat_sub, BitVec.toNat_setWidth]
  rw [Nat.mod_eq_of_lt (by omega : a.toNat < 2 ^ (w + 1)), Nat.mod_eq_of_lt (by omega : b.toNat < 2 ^ (w + 1)),
    Nat.testBit_eq_decide_div_mod_eq, decide_eq_true_eq]
  by_cases hc : a.toNat < b.toNat
  · rw [Nat.mod_eq_of_lt (by omega : 2 ^ (w + 1) - b.toNat + a.toNat < 2 ^ (w + 1))]
    have : (2 ^ (w + 1) - b.toNat + a.toNat) / 2 ^ w = 1 := by rw [Nat.div_eq_iff (by omega)]; omega
    simp [this, hc]
  · have e : 2 ^ (w + 1) - b.toNat + a.toNat = (a.toNat - b.toNat) + 2 ^ (w + 1) := by omega
    rw [e, Nat.add_mod_right, Nat.mod_eq_of_lt (by omega : a.toNat - b.toNat < 2 ^ (w + 1))]
    simp [Nat.div_eq_of_lt (by omega : a.toNat - b.toNat < 2 ^ w), hc]

/-- ADD's V by the sign bits (R134). -/
theorem aluAdd_overflow : (aluAdd a b).2.v = (a.msb == b.msb && (a + b).msb != a.msb) := by
  rw [← aluAdd_result]
  rfl

/-- SUB's V by the sign bits (R135). -/
theorem aluSub_overflow : (aluSub a b).2.v = (a.msb != b.msb && (a - b).msb == b.msb) := by
  rw [← aluSub_result]
  rfl

end Sys2Proof.Machine
end

