-- ==== Sys2Proof/Laws/State.lean ====
section
/-! SUPPORT. The field updates of State: one lemma per field per update, true by rfl, so that no later proof unfolds a
record update; and what a register read sees of each. -/

namespace Sys2Proof.Machine

variable (s : State)

/-! ### setReg -/

@[simp] theorem State.setReg_regs (i : Reg) (v : Word) : (s.setReg i v).regs = s.regs.set i.val v i.isLt := rfl
@[simp] theorem State.setReg_pc (i : Reg) (v : Word) : (s.setReg i v).pc = s.pc := rfl
@[simp] theorem State.setReg_sr (i : Reg) (v : Word) : (s.setReg i v).sr = s.sr := rfl
@[simp] theorem State.setReg_ir (i : Reg) (v : Word) : (s.setReg i v).ir = s.ir := rfl
@[simp] theorem State.setReg_opc (i : Reg) (v : Word) : (s.setReg i v).opc = s.opc := rfl
@[simp] theorem State.setReg_op1 (i : Reg) (v : Word) : (s.setReg i v).op1 = s.op1 := rfl
@[simp] theorem State.setReg_op2 (i : Reg) (v : Word) : (s.setReg i v).op2 = s.op2 := rfl
@[simp] theorem State.setReg_execState (i : Reg) (v : Word) : (s.setReg i v).execState = s.execState := rfl
@[simp] theorem State.setReg_prev (i : Reg) (v : Word) : (s.setReg i v).prev = s.prev := rfl
@[simp] theorem State.setReg_lfa (i : Reg) (v : Word) : (s.setReg i v).lfa = s.lfa := rfl
@[simp] theorem State.setReg_pm (i : Reg) (v : Word) : (s.setReg i v).pm = s.pm := rfl
@[simp] theorem State.setReg_dm (i : Reg) (v : Word) : (s.setReg i v).dm = s.dm := rfl
@[simp] theorem State.setReg_stack (i : Reg) (v : Word) : (s.setReg i v).stack = s.stack := rfl
@[simp] theorem State.setReg_pinIn (i : Reg) (v : Word) : (s.setReg i v).pinIn = s.pinIn := rfl
@[simp] theorem State.setReg_inputs (i : Reg) (v : Word) : (s.setReg i v).inputs = s.inputs := rfl

/-! ### setRegs -/

@[simp] theorem State.setRegs_regs (v : Vector Word 32) : (s.setRegs v).regs = v := rfl
@[simp] theorem State.setRegs_pc (v : Vector Word 32) : (s.setRegs v).pc = s.pc := rfl
@[simp] theorem State.setRegs_sr (v : Vector Word 32) : (s.setRegs v).sr = s.sr := rfl
@[simp] theorem State.setRegs_ir (v : Vector Word 32) : (s.setRegs v).ir = s.ir := rfl
@[simp] theorem State.setRegs_opc (v : Vector Word 32) : (s.setRegs v).opc = s.opc := rfl
@[simp] theorem State.setRegs_op1 (v : Vector Word 32) : (s.setRegs v).op1 = s.op1 := rfl
@[simp] theorem State.setRegs_op2 (v : Vector Word 32) : (s.setRegs v).op2 = s.op2 := rfl
@[simp] theorem State.setRegs_execState (v : Vector Word 32) : (s.setRegs v).execState = s.execState := rfl
@[simp] theorem State.setRegs_prev (v : Vector Word 32) : (s.setRegs v).prev = s.prev := rfl
@[simp] theorem State.setRegs_lfa (v : Vector Word 32) : (s.setRegs v).lfa = s.lfa := rfl
@[simp] theorem State.setRegs_pm (v : Vector Word 32) : (s.setRegs v).pm = s.pm := rfl
@[simp] theorem State.setRegs_dm (v : Vector Word 32) : (s.setRegs v).dm = s.dm := rfl
@[simp] theorem State.setRegs_stack (v : Vector Word 32) : (s.setRegs v).stack = s.stack := rfl
@[simp] theorem State.setRegs_pinIn (v : Vector Word 32) : (s.setRegs v).pinIn = s.pinIn := rfl
@[simp] theorem State.setRegs_inputs (v : Vector Word 32) : (s.setRegs v).inputs = s.inputs := rfl

/-! ### setPc -/

@[simp] theorem State.setPc_regs (v : Word) : (s.setPc v).regs = s.regs := rfl
@[simp] theorem State.setPc_pc (v : Word) : (s.setPc v).pc = v := rfl
@[simp] theorem State.setPc_sr (v : Word) : (s.setPc v).sr = s.sr := rfl
@[simp] theorem State.setPc_ir (v : Word) : (s.setPc v).ir = s.ir := rfl
@[simp] theorem State.setPc_opc (v : Word) : (s.setPc v).opc = s.opc := rfl
@[simp] theorem State.setPc_op1 (v : Word) : (s.setPc v).op1 = s.op1 := rfl
@[simp] theorem State.setPc_op2 (v : Word) : (s.setPc v).op2 = s.op2 := rfl
@[simp] theorem State.setPc_execState (v : Word) : (s.setPc v).execState = s.execState := rfl
@[simp] theorem State.setPc_prev (v : Word) : (s.setPc v).prev = s.prev := rfl
@[simp] theorem State.setPc_lfa (v : Word) : (s.setPc v).lfa = s.lfa := rfl
@[simp] theorem State.setPc_pm (v : Word) : (s.setPc v).pm = s.pm := rfl
@[simp] theorem State.setPc_dm (v : Word) : (s.setPc v).dm = s.dm := rfl
@[simp] theorem State.setPc_stack (v : Word) : (s.setPc v).stack = s.stack := rfl
@[simp] theorem State.setPc_pinIn (v : Word) : (s.setPc v).pinIn = s.pinIn := rfl
@[simp] theorem State.setPc_inputs (v : Word) : (s.setPc v).inputs = s.inputs := rfl

/-! ### setSr -/

@[simp] theorem State.setSr_regs (v : BitVec 6) : (s.setSr v).regs = s.regs := rfl
@[simp] theorem State.setSr_pc (v : BitVec 6) : (s.setSr v).pc = s.pc := rfl
@[simp] theorem State.setSr_sr (v : BitVec 6) : (s.setSr v).sr = v := rfl
@[simp] theorem State.setSr_ir (v : BitVec 6) : (s.setSr v).ir = s.ir := rfl
@[simp] theorem State.setSr_opc (v : BitVec 6) : (s.setSr v).opc = s.opc := rfl
@[simp] theorem State.setSr_op1 (v : BitVec 6) : (s.setSr v).op1 = s.op1 := rfl
@[simp] theorem State.setSr_op2 (v : BitVec 6) : (s.setSr v).op2 = s.op2 := rfl
@[simp] theorem State.setSr_execState (v : BitVec 6) : (s.setSr v).execState = s.execState := rfl
@[simp] theorem State.setSr_prev (v : BitVec 6) : (s.setSr v).prev = s.prev := rfl
@[simp] theorem State.setSr_lfa (v : BitVec 6) : (s.setSr v).lfa = s.lfa := rfl
@[simp] theorem State.setSr_pm (v : BitVec 6) : (s.setSr v).pm = s.pm := rfl
@[simp] theorem State.setSr_dm (v : BitVec 6) : (s.setSr v).dm = s.dm := rfl
@[simp] theorem State.setSr_stack (v : BitVec 6) : (s.setSr v).stack = s.stack := rfl
@[simp] theorem State.setSr_pinIn (v : BitVec 6) : (s.setSr v).pinIn = s.pinIn := rfl
@[simp] theorem State.setSr_inputs (v : BitVec 6) : (s.setSr v).inputs = s.inputs := rfl

/-! ### setLatches -/

@[simp] theorem State.setLatches_regs (w : InstrWord) (c a : BitVec 8) (b : BitVec 16) : (s.setLatches w c a b).regs = s.regs := rfl
@[simp] theorem State.setLatches_pc (w : InstrWord) (c a : BitVec 8) (b : BitVec 16) : (s.setLatches w c a b).pc = s.pc := rfl
@[simp] theorem State.setLatches_sr (w : InstrWord) (c a : BitVec 8) (b : BitVec 16) : (s.setLatches w c a b).sr = s.sr := rfl
@[simp] theorem State.setLatches_ir (w : InstrWord) (c a : BitVec 8) (b : BitVec 16) : (s.setLatches w c a b).ir = w := rfl
@[simp] theorem State.setLatches_opc (w : InstrWord) (c a : BitVec 8) (b : BitVec 16) : (s.setLatches w c a b).opc = c := rfl
@[simp] theorem State.setLatches_op1 (w : InstrWord) (c a : BitVec 8) (b : BitVec 16) : (s.setLatches w c a b).op1 = a := rfl
@[simp] theorem State.setLatches_op2 (w : InstrWord) (c a : BitVec 8) (b : BitVec 16) : (s.setLatches w c a b).op2 = b := rfl
@[simp] theorem State.setLatches_execState (w : InstrWord) (c a : BitVec 8) (b : BitVec 16) : (s.setLatches w c a b).execState = s.execState := rfl
@[simp] theorem State.setLatches_prev (w : InstrWord) (c a : BitVec 8) (b : BitVec 16) : (s.setLatches w c a b).prev = s.prev := rfl
@[simp] theorem State.setLatches_lfa (w : InstrWord) (c a : BitVec 8) (b : BitVec 16) : (s.setLatches w c a b).lfa = s.lfa := rfl
@[simp] theorem State.setLatches_pm (w : InstrWord) (c a : BitVec 8) (b : BitVec 16) : (s.setLatches w c a b).pm = s.pm := rfl
@[simp] theorem State.setLatches_dm (w : InstrWord) (c a : BitVec 8) (b : BitVec 16) : (s.setLatches w c a b).dm = s.dm := rfl
@[simp] theorem State.setLatches_stack (w : InstrWord) (c a : BitVec 8) (b : BitVec 16) : (s.setLatches w c a b).stack = s.stack := rfl
@[simp] theorem State.setLatches_pinIn (w : InstrWord) (c a : BitVec 8) (b : BitVec 16) : (s.setLatches w c a b).pinIn = s.pinIn := rfl
@[simp] theorem State.setLatches_inputs (w : InstrWord) (c a : BitVec 8) (b : BitVec 16) : (s.setLatches w c a b).inputs = s.inputs := rfl

/-! ### setExecState -/

@[simp] theorem State.setExecState_regs (v : ExecState) : (s.setExecState v).regs = s.regs := rfl
@[simp] theorem State.setExecState_pc (v : ExecState) : (s.setExecState v).pc = s.pc := rfl
@[simp] theorem State.setExecState_sr (v : ExecState) : (s.setExecState v).sr = s.sr := rfl
@[simp] theorem State.setExecState_ir (v : ExecState) : (s.setExecState v).ir = s.ir := rfl
@[simp] theorem State.setExecState_opc (v : ExecState) : (s.setExecState v).opc = s.opc := rfl
@[simp] theorem State.setExecState_op1 (v : ExecState) : (s.setExecState v).op1 = s.op1 := rfl
@[simp] theorem State.setExecState_op2 (v : ExecState) : (s.setExecState v).op2 = s.op2 := rfl
@[simp] theorem State.setExecState_execState (v : ExecState) : (s.setExecState v).execState = v := rfl
@[simp] theorem State.setExecState_prev (v : ExecState) : (s.setExecState v).prev = s.prev := rfl
@[simp] theorem State.setExecState_lfa (v : ExecState) : (s.setExecState v).lfa = s.lfa := rfl
@[simp] theorem State.setExecState_pm (v : ExecState) : (s.setExecState v).pm = s.pm := rfl
@[simp] theorem State.setExecState_dm (v : ExecState) : (s.setExecState v).dm = s.dm := rfl
@[simp] theorem State.setExecState_stack (v : ExecState) : (s.setExecState v).stack = s.stack := rfl
@[simp] theorem State.setExecState_pinIn (v : ExecState) : (s.setExecState v).pinIn = s.pinIn := rfl
@[simp] theorem State.setExecState_inputs (v : ExecState) : (s.setExecState v).inputs = s.inputs := rfl

/-! ### setPrev -/

@[simp] theorem State.setPrev_regs (v : Vector Word 3) : (s.setPrev v).regs = s.regs := rfl
@[simp] theorem State.setPrev_pc (v : Vector Word 3) : (s.setPrev v).pc = s.pc := rfl
@[simp] theorem State.setPrev_sr (v : Vector Word 3) : (s.setPrev v).sr = s.sr := rfl
@[simp] theorem State.setPrev_ir (v : Vector Word 3) : (s.setPrev v).ir = s.ir := rfl
@[simp] theorem State.setPrev_opc (v : Vector Word 3) : (s.setPrev v).opc = s.opc := rfl
@[simp] theorem State.setPrev_op1 (v : Vector Word 3) : (s.setPrev v).op1 = s.op1 := rfl
@[simp] theorem State.setPrev_op2 (v : Vector Word 3) : (s.setPrev v).op2 = s.op2 := rfl
@[simp] theorem State.setPrev_execState (v : Vector Word 3) : (s.setPrev v).execState = s.execState := rfl
@[simp] theorem State.setPrev_prev (v : Vector Word 3) : (s.setPrev v).prev = v := rfl
@[simp] theorem State.setPrev_lfa (v : Vector Word 3) : (s.setPrev v).lfa = s.lfa := rfl
@[simp] theorem State.setPrev_pm (v : Vector Word 3) : (s.setPrev v).pm = s.pm := rfl
@[simp] theorem State.setPrev_dm (v : Vector Word 3) : (s.setPrev v).dm = s.dm := rfl
@[simp] theorem State.setPrev_stack (v : Vector Word 3) : (s.setPrev v).stack = s.stack := rfl
@[simp] theorem State.setPrev_pinIn (v : Vector Word 3) : (s.setPrev v).pinIn = s.pinIn := rfl
@[simp] theorem State.setPrev_inputs (v : Vector Word 3) : (s.setPrev v).inputs = s.inputs := rfl

/-! ### setDm -/

@[simp] theorem State.setDm_regs (v : Memory) : (s.setDm v).regs = s.regs := rfl
@[simp] theorem State.setDm_pc (v : Memory) : (s.setDm v).pc = s.pc := rfl
@[simp] theorem State.setDm_sr (v : Memory) : (s.setDm v).sr = s.sr := rfl
@[simp] theorem State.setDm_ir (v : Memory) : (s.setDm v).ir = s.ir := rfl
@[simp] theorem State.setDm_opc (v : Memory) : (s.setDm v).opc = s.opc := rfl
@[simp] theorem State.setDm_op1 (v : Memory) : (s.setDm v).op1 = s.op1 := rfl
@[simp] theorem State.setDm_op2 (v : Memory) : (s.setDm v).op2 = s.op2 := rfl
@[simp] theorem State.setDm_execState (v : Memory) : (s.setDm v).execState = s.execState := rfl
@[simp] theorem State.setDm_prev (v : Memory) : (s.setDm v).prev = s.prev := rfl
@[simp] theorem State.setDm_lfa (v : Memory) : (s.setDm v).lfa = s.lfa := rfl
@[simp] theorem State.setDm_pm (v : Memory) : (s.setDm v).pm = s.pm := rfl
@[simp] theorem State.setDm_dm (v : Memory) : (s.setDm v).dm = v := rfl
@[simp] theorem State.setDm_stack (v : Memory) : (s.setDm v).stack = s.stack := rfl
@[simp] theorem State.setDm_pinIn (v : Memory) : (s.setDm v).pinIn = s.pinIn := rfl
@[simp] theorem State.setDm_inputs (v : Memory) : (s.setDm v).inputs = s.inputs := rfl

/-! ### setStack -/

@[simp] theorem State.setStack_regs (v : Stack) : (s.setStack v).regs = s.regs := rfl
@[simp] theorem State.setStack_pc (v : Stack) : (s.setStack v).pc = s.pc := rfl
@[simp] theorem State.setStack_sr (v : Stack) : (s.setStack v).sr = s.sr := rfl
@[simp] theorem State.setStack_ir (v : Stack) : (s.setStack v).ir = s.ir := rfl
@[simp] theorem State.setStack_opc (v : Stack) : (s.setStack v).opc = s.opc := rfl
@[simp] theorem State.setStack_op1 (v : Stack) : (s.setStack v).op1 = s.op1 := rfl
@[simp] theorem State.setStack_op2 (v : Stack) : (s.setStack v).op2 = s.op2 := rfl
@[simp] theorem State.setStack_execState (v : Stack) : (s.setStack v).execState = s.execState := rfl
@[simp] theorem State.setStack_prev (v : Stack) : (s.setStack v).prev = s.prev := rfl
@[simp] theorem State.setStack_lfa (v : Stack) : (s.setStack v).lfa = s.lfa := rfl
@[simp] theorem State.setStack_pm (v : Stack) : (s.setStack v).pm = s.pm := rfl
@[simp] theorem State.setStack_dm (v : Stack) : (s.setStack v).dm = s.dm := rfl
@[simp] theorem State.setStack_stack (v : Stack) : (s.setStack v).stack = v := rfl
@[simp] theorem State.setStack_pinIn (v : Stack) : (s.setStack v).pinIn = s.pinIn := rfl
@[simp] theorem State.setStack_inputs (v : Stack) : (s.setStack v).inputs = s.inputs := rfl

/-! ### setHost -/

@[simp] theorem State.setHost_regs (p : Vector Word 3) (l : List HostInput) : (s.setHost p l).regs = s.regs := rfl
@[simp] theorem State.setHost_pc (p : Vector Word 3) (l : List HostInput) : (s.setHost p l).pc = s.pc := rfl
@[simp] theorem State.setHost_sr (p : Vector Word 3) (l : List HostInput) : (s.setHost p l).sr = s.sr := rfl
@[simp] theorem State.setHost_ir (p : Vector Word 3) (l : List HostInput) : (s.setHost p l).ir = s.ir := rfl
@[simp] theorem State.setHost_opc (p : Vector Word 3) (l : List HostInput) : (s.setHost p l).opc = s.opc := rfl
@[simp] theorem State.setHost_op1 (p : Vector Word 3) (l : List HostInput) : (s.setHost p l).op1 = s.op1 := rfl
@[simp] theorem State.setHost_op2 (p : Vector Word 3) (l : List HostInput) : (s.setHost p l).op2 = s.op2 := rfl
@[simp] theorem State.setHost_execState (p : Vector Word 3) (l : List HostInput) : (s.setHost p l).execState = s.execState := rfl
@[simp] theorem State.setHost_prev (p : Vector Word 3) (l : List HostInput) : (s.setHost p l).prev = s.prev := rfl
@[simp] theorem State.setHost_lfa (p : Vector Word 3) (l : List HostInput) : (s.setHost p l).lfa = s.lfa := rfl
@[simp] theorem State.setHost_pm (p : Vector Word 3) (l : List HostInput) : (s.setHost p l).pm = s.pm := rfl
@[simp] theorem State.setHost_dm (p : Vector Word 3) (l : List HostInput) : (s.setHost p l).dm = s.dm := rfl
@[simp] theorem State.setHost_stack (p : Vector Word 3) (l : List HostInput) : (s.setHost p l).stack = s.stack := rfl
@[simp] theorem State.setHost_pinIn (p : Vector Word 3) (l : List HostInput) : (s.setHost p l).pinIn = p := rfl
@[simp] theorem State.setHost_inputs (p : Vector Word 3) (l : List HostInput) : (s.setHost p l).inputs = l := rfl

/-! ### Register reads -/

/-- A register reads what was last written to it, R0 like any other (R20, R21). -/
@[simp] theorem State.reg_setReg_same (i : Reg) (v : Word) : (s.setReg i v).reg i = v := by
  simp [State.reg, State.setReg, Vector.get_eq_getElem]

/-- Writing one register leaves every other alone (R20). -/
theorem State.reg_setReg_other {i j : Reg} (v : Word) (h : j ≠ i) : (s.setReg i v).reg j = s.reg j := by
  have : i.val ≠ j.val := fun e => h (Fin.ext e.symm)
  simp [State.reg, State.setReg, Vector.get_eq_getElem, this]

/-- A register read depends on the register file alone. -/
theorem State.reg_congr {s t : State} (h : t.regs = s.regs) (i : Reg) : t.reg i = s.reg i := by
  simp only [State.reg, h]

@[simp] theorem State.reg_setPc (v : Word) (i : Reg) : (s.setPc v).reg i = s.reg i := rfl
@[simp] theorem State.reg_setSr (v : BitVec 6) (i : Reg) : (s.setSr v).reg i = s.reg i := rfl
@[simp] theorem State.reg_setLatches (w : InstrWord) (c a : BitVec 8) (b : BitVec 16) (i : Reg) : (s.setLatches w c a b).reg i = s.reg i := rfl
@[simp] theorem State.reg_setExecState (v : ExecState) (i : Reg) : (s.setExecState v).reg i = s.reg i := rfl
@[simp] theorem State.reg_setPrev (v : Vector Word 3) (i : Reg) : (s.setPrev v).reg i = s.reg i := rfl
@[simp] theorem State.reg_setDm (v : Memory) (i : Reg) : (s.setDm v).reg i = s.reg i := rfl
@[simp] theorem State.reg_setStack (v : Stack) (i : Reg) : (s.setStack v).reg i = s.reg i := rfl
@[simp] theorem State.reg_setHost (p : Vector Word 3) (l : List HostInput) (i : Reg) : (s.setHost p l).reg i = s.reg i := rfl

/-- Equal registers one by one are an equal register file. -/
theorem State.regs_ext {s t : State} (h : ∀ i : Reg, t.reg i = s.reg i) : t.regs = s.regs := by
  refine Vector.ext fun i hi => ?_
  simpa [State.reg, Vector.get_eq_getElem] using h ⟨i, hi⟩

/-! ### The reset state -/

@[simp] theorem State.reset_reg (i : Reg) : State.reset.reg i = 0#32 := by
  simp [State.reg, State.reset, Vector.get_eq_getElem]
@[simp] theorem State.reset_pc : State.reset.pc = 0#32 := rfl
@[simp] theorem State.reset_sr : State.reset.sr = 0 := rfl
@[simp] theorem State.reset_ir : State.reset.ir = 0#32 := rfl
@[simp] theorem State.reset_opc : State.reset.opc = 0 := rfl
@[simp] theorem State.reset_op1 : State.reset.op1 = 0 := rfl
@[simp] theorem State.reset_op2 : State.reset.op2 = 0 := rfl
@[simp] theorem State.reset_execState : State.reset.execState = .fetch := rfl
@[simp] theorem State.reset_lfa : State.reset.lfa = 0#32 := rfl
@[simp] theorem State.reset_pm : State.reset.pm = [] := rfl
@[simp] theorem State.reset_dm : State.reset.dm = [] := rfl
@[simp] theorem State.reset_inputs : State.reset.inputs = [] := rfl
@[simp] theorem State.reset_stack : State.reset.stack = Stack.empty := rfl

end Sys2Proof.Machine
end

