-- ==== Sys2Proof/Laws/Flags.lean ====
section
/-! SUPPORT. The six flags of the status register and what each write of it leaves (10_state.md R26 to R28). -/

namespace Sys2Proof.Machine

/-- Each bit of a packed status register is the flag of its place (R26). -/
theorem packSr_bits (i : Bool) (f : AluFlags) :
    (packSr i f).getLsbD 5 = i ∧ (packSr i f).getLsbD 4 = f.s ∧ (packSr i f).getLsbD 3 = f.n ∧
      (packSr i f).getLsbD 2 = f.z ∧ (packSr i f).getLsbD 1 = f.v ∧ (packSr i f).getLsbD 0 = f.c := by
  obtain ⟨a, b, c, d, e⟩ := f
  revert i a b c d e
  decide

/-- A status register is its own six flags, packed. -/
theorem packSr_self (v : BitVec 6) :
    packSr (v.getLsbD 5) { s := v.getLsbD 4, n := v.getLsbD 3, z := v.getLsbD 2, v := v.getLsbD 1, c := v.getLsbD 0 } = v := by
  revert v
  decide

/-- Packing is injective. -/
theorem packSr_inj {i j : Bool} {f g : AluFlags} (h : packSr i f = packSr j g) : i = j ∧ f = g := by
  obtain ⟨a5, a4, a3, a2, a1, a0⟩ := packSr_bits i f
  obtain ⟨b5, b4, b3, b2, b1, b0⟩ := packSr_bits j g
  rw [h] at a5 a4 a3 a2 a1 a0
  cases f; cases g
  simp_all

section
variable (s : State) (v : BitVec 6)

/-! ### A packed SR read back -/

@[simp] theorem flagI_setSr_pack (i : Bool) (f : AluFlags) : (s.setSr (packSr i f)).flagI = i := (packSr_bits i f).1
@[simp] theorem flagS_setSr_pack (i : Bool) (f : AluFlags) : (s.setSr (packSr i f)).flagS = f.s := (packSr_bits i f).2.1
@[simp] theorem flagN_setSr_pack (i : Bool) (f : AluFlags) : (s.setSr (packSr i f)).flagN = f.n := (packSr_bits i f).2.2.1
@[simp] theorem flagZ_setSr_pack (i : Bool) (f : AluFlags) : (s.setSr (packSr i f)).flagZ = f.z := (packSr_bits i f).2.2.2.1
@[simp] theorem flagV_setSr_pack (i : Bool) (f : AluFlags) : (s.setSr (packSr i f)).flagV = f.v := (packSr_bits i f).2.2.2.2.1
@[simp] theorem flagC_setSr_pack (i : Bool) (f : AluFlags) : (s.setSr (packSr i f)).flagC = f.c := (packSr_bits i f).2.2.2.2.2

/-! ### SetFlagsSNZVC (R137) and SR.I (R243, R244) -/

variable (f : AluFlags) (b : Bool)

@[simp] theorem setFlagsSNZVC_flagI : (setFlagsSNZVC f s).flagI = s.flagI := flagI_setSr_pack s _ f
@[simp] theorem setFlagsSNZVC_flagS : (setFlagsSNZVC f s).flagS = f.s := flagS_setSr_pack s _ f
@[simp] theorem setFlagsSNZVC_flagN : (setFlagsSNZVC f s).flagN = f.n := flagN_setSr_pack s _ f
@[simp] theorem setFlagsSNZVC_flagZ : (setFlagsSNZVC f s).flagZ = f.z := flagZ_setSr_pack s _ f
@[simp] theorem setFlagsSNZVC_flagV : (setFlagsSNZVC f s).flagV = f.v := flagV_setSr_pack s _ f
@[simp] theorem setFlagsSNZVC_flagC : (setFlagsSNZVC f s).flagC = f.c := flagC_setSr_pack s _ f
@[simp] theorem setFlagsSNZVC_aluFlags : (setFlagsSNZVC f s).aluFlags = f := by
  simp [State.aluFlags]

@[simp] theorem setFlagI_flagI : (setFlagI b s).flagI = b := flagI_setSr_pack s b _
@[simp] theorem setFlagI_flagS : (setFlagI b s).flagS = s.flagS := flagS_setSr_pack s b _
@[simp] theorem setFlagI_flagN : (setFlagI b s).flagN = s.flagN := flagN_setSr_pack s b _
@[simp] theorem setFlagI_flagZ : (setFlagI b s).flagZ = s.flagZ := flagZ_setSr_pack s b _
@[simp] theorem setFlagI_flagV : (setFlagI b s).flagV = s.flagV := flagV_setSr_pack s b _
@[simp] theorem setFlagI_flagC : (setFlagI b s).flagC = s.flagC := flagC_setSr_pack s b _
@[simp] theorem setFlagI_aluFlags : (setFlagI b s).aluFlags = s.aluFlags := by
  simp [State.aluFlags]

/-- The flags of a state are those of its SR. -/
theorem flags_congr {s t : State} (h : t.sr = s.sr) : t.flagI = s.flagI ∧ t.aluFlags = s.aluFlags := by
  simp [State.flagI, State.aluFlags, State.flagS, State.flagN, State.flagZ, State.flagV, State.flagC, h]

/-- Equal flags are an equal SR: there is no seventh bit. -/
theorem sr_ext {s t : State} (hI : t.flagI = s.flagI) (hf : t.aluFlags = s.aluFlags) : t.sr = s.sr := by
  have h := packSr_self s.sr
  have h' := packSr_self t.sr
  rw [← h, ← h']
  exact congrArg₂ packSr hI hf

end

/-! ### What the two SR writes leave: every other field -/

section
variable (s : State) (f : AluFlags) (b : Bool)

@[simp] theorem setFlagsSNZVC_regs : (setFlagsSNZVC f s).regs = s.regs := rfl
@[simp] theorem setFlagsSNZVC_pc : (setFlagsSNZVC f s).pc = s.pc := rfl
@[simp] theorem setFlagsSNZVC_ir : (setFlagsSNZVC f s).ir = s.ir := rfl
@[simp] theorem setFlagsSNZVC_opc : (setFlagsSNZVC f s).opc = s.opc := rfl
@[simp] theorem setFlagsSNZVC_op1 : (setFlagsSNZVC f s).op1 = s.op1 := rfl
@[simp] theorem setFlagsSNZVC_op2 : (setFlagsSNZVC f s).op2 = s.op2 := rfl
@[simp] theorem setFlagsSNZVC_execState : (setFlagsSNZVC f s).execState = s.execState := rfl
@[simp] theorem setFlagsSNZVC_prev : (setFlagsSNZVC f s).prev = s.prev := rfl
@[simp] theorem setFlagsSNZVC_lfa : (setFlagsSNZVC f s).lfa = s.lfa := rfl
@[simp] theorem setFlagsSNZVC_pm : (setFlagsSNZVC f s).pm = s.pm := rfl
@[simp] theorem setFlagsSNZVC_dm : (setFlagsSNZVC f s).dm = s.dm := rfl
@[simp] theorem setFlagsSNZVC_stack : (setFlagsSNZVC f s).stack = s.stack := rfl
@[simp] theorem setFlagsSNZVC_pinIn : (setFlagsSNZVC f s).pinIn = s.pinIn := rfl
@[simp] theorem setFlagsSNZVC_inputs : (setFlagsSNZVC f s).inputs = s.inputs := rfl
@[simp] theorem setFlagsSNZVC_reg (i : Reg) : (setFlagsSNZVC f s).reg i = s.reg i := rfl

@[simp] theorem setFlagI_regs : (setFlagI b s).regs = s.regs := rfl
@[simp] theorem setFlagI_pc : (setFlagI b s).pc = s.pc := rfl
@[simp] theorem setFlagI_ir : (setFlagI b s).ir = s.ir := rfl
@[simp] theorem setFlagI_opc : (setFlagI b s).opc = s.opc := rfl
@[simp] theorem setFlagI_op1 : (setFlagI b s).op1 = s.op1 := rfl
@[simp] theorem setFlagI_op2 : (setFlagI b s).op2 = s.op2 := rfl
@[simp] theorem setFlagI_execState : (setFlagI b s).execState = s.execState := rfl
@[simp] theorem setFlagI_prev : (setFlagI b s).prev = s.prev := rfl
@[simp] theorem setFlagI_lfa : (setFlagI b s).lfa = s.lfa := rfl
@[simp] theorem setFlagI_pm : (setFlagI b s).pm = s.pm := rfl
@[simp] theorem setFlagI_dm : (setFlagI b s).dm = s.dm := rfl
@[simp] theorem setFlagI_stack : (setFlagI b s).stack = s.stack := rfl
@[simp] theorem setFlagI_pinIn : (setFlagI b s).pinIn = s.pinIn := rfl
@[simp] theorem setFlagI_inputs : (setFlagI b s).inputs = s.inputs := rfl
@[simp] theorem setFlagI_reg (i : Reg) : (setFlagI b s).reg i = s.reg i := rfl
end

end Sys2Proof.Machine
end

