-- ==== Sys2Proof/Laws/Memory.lean ====
section
/-! SUPPORT. The laws of a memory of cells: read after write, the canonical form kept by every operation, and equal
reads of canonical memories are equal memories (20_memory.md R64, R65). -/

namespace Sys2Proof.Machine

@[simp] theorem Memory.lookup_nil (a : Nat) : Memory.lookup [] a = 0#32 := rfl

@[simp] theorem Memory.lookup_erase_same (m : Memory) (a : Nat) : Memory.lookup (Memory.erase m a) a = 0#32 := by
  induction m with
  | nil => rfl
  | cons c m ih =>
    obtain ⟨b, w⟩ := c
    by_cases h : a = b <;> simp_all [Memory.erase, Memory.lookup]

theorem Memory.lookup_erase_other (m : Memory) {a b : Nat} (h : b ≠ a) :
    Memory.lookup (Memory.erase m a) b = Memory.lookup m b := by
  induction m with
  | nil => rfl
  | cons c m ih =>
    obtain ⟨k, w⟩ := c
    by_cases hk : a = k
    · subst hk; simp [Memory.erase, Memory.lookup, h, ih]
    · by_cases hb : b = k <;> simp [Memory.erase, Memory.lookup, hk, hb, ih]

theorem Memory.lookup_insertCell_other (m : Memory) {a b : Nat} (v : Word) (h : b ≠ a) :
    Memory.lookup (Memory.insertCell m a v) b = Memory.lookup m b := by
  induction m with
  | nil => simp [Memory.insertCell, Memory.lookup, h]
  | cons c m ih =>
    obtain ⟨k, w⟩ := c
    by_cases hk : a < k <;> simp [Memory.insertCell, Memory.lookup, hk, h, ih]

theorem Memory.lookup_insertCell_erase (m : Memory) (a : Nat) (v : Word) :
    Memory.lookup (Memory.insertCell (Memory.erase m a) a v) a = v := by
  induction m with
  | nil => simp [Memory.erase, Memory.insertCell, Memory.lookup]
  | cons c m ih =>
    obtain ⟨k, w⟩ := c
    by_cases hk : a = k
    · simpa [Memory.erase, hk] using ih
    · by_cases hlt : a < k <;> simp [Memory.erase, Memory.insertCell, Memory.lookup, hk, hlt, ih]

/-- Read after write to the same cell. -/
@[simp] theorem Memory.lookup_store_same (m : Memory) (a : Nat) (v : Word) :
    Memory.lookup (Memory.store m a v) a = v := by
  by_cases h : v = 0#32
  · simp [Memory.store, h]
  · simp [Memory.store, h, Memory.lookup_insertCell_erase]

/-- A write leaves every other cell alone. -/
theorem Memory.lookup_store_other (m : Memory) {a b : Nat} (v : Word) (h : b ≠ a) :
    Memory.lookup (Memory.store m a v) b = Memory.lookup m b := by
  by_cases hv : v = 0#32
  · simp [Memory.store, hv, Memory.lookup_erase_other m h]
  · simp [Memory.store, hv, Memory.lookup_insertCell_other _ v h, Memory.lookup_erase_other m h]

/-- What a write does to every read, in one equation. -/
theorem Memory.lookup_store (m : Memory) (a b : Nat) (v : Word) :
    Memory.lookup (Memory.store m a v) b = if b = a then v else Memory.lookup m b := by
  by_cases h : b = a
  · simp [h]
  · simp [h, Memory.lookup_store_other m v h]

/-! ### The canonical form -/

theorem Memory.wfFrom_cons {size lo b : Nat} {w : Word} {m : Memory} :
    Memory.wfFrom size lo ((b, w) :: m) = true ↔
      lo ≤ b ∧ b < size ∧ w ≠ 0#32 ∧ Memory.wfFrom size (b + 1) m = true := by
  simp [Memory.wfFrom, and_assoc]

theorem Memory.wfFrom_mono {size lo lo' : Nat} {m : Memory} (hlo : lo' ≤ lo)
    (h : Memory.wfFrom size lo m = true) : Memory.wfFrom size lo' m = true := by
  cases m with
  | nil => rfl
  | cons c m =>
    obtain ⟨b, w⟩ := c
    rw [Memory.wfFrom_cons] at h ⊢
    exact ⟨by omega, h.2⟩

theorem Memory.wfFrom_erase {size : Nat} (a : Nat) {m : Memory} :
    ∀ {lo : Nat}, Memory.wfFrom size lo m = true → Memory.wfFrom size lo (Memory.erase m a) = true := by
  induction m with
  | nil => intro lo h; exact h
  | cons c m ih =>
    obtain ⟨b, w⟩ := c
    intro lo h
    rw [Memory.wfFrom_cons] at h
    obtain ⟨h1, h2, h3, h4⟩ := h
    by_cases hk : a = b
    · subst hk
      simpa [Memory.erase] using Memory.wfFrom_mono (by omega) (ih h4)
    · simp only [Memory.erase, hk, if_false]
      exact Memory.wfFrom_cons.2 ⟨h1, h2, h3, ih h4⟩

theorem Memory.wfFrom_insertCell {size a : Nat} {v : Word} (ha : a < size) (hv : v ≠ 0#32) {m : Memory} :
    ∀ {lo : Nat}, lo ≤ a → Memory.wfFrom size lo m = true →
      Memory.wfFrom size lo (Memory.insertCell (Memory.erase m a) a v) = true := by
  induction m with
  | nil => intro lo hlo _; exact Memory.wfFrom_cons.2 ⟨hlo, ha, hv, rfl⟩
  | cons c m ih =>
    obtain ⟨b, w⟩ := c
    intro lo hlo h
    rw [Memory.wfFrom_cons] at h
    obtain ⟨h1, h2, h3, h4⟩ := h
    by_cases hk : a = b
    · subst hk
      simpa [Memory.erase] using ih hlo (Memory.wfFrom_mono (by omega) h4)
    · by_cases hlt : a < b
      · have := Memory.wfFrom_erase a h4
        simp only [Memory.erase, hk, if_false, Memory.insertCell, hlt, if_true]
        exact Memory.wfFrom_cons.2 ⟨hlo, ha, hv, Memory.wfFrom_cons.2 ⟨by omega, h2, h3, this⟩⟩
      · simp only [Memory.erase, hk, if_false, Memory.insertCell, hlt]
        exact Memory.wfFrom_cons.2 ⟨h1, h2, h3, ih (by omega) h4⟩

/-- A write inside the memory keeps the canonical form. -/
theorem Memory.wf_store {size a : Nat} (v : Word) {m : Memory} (ha : a < size) (h : Memory.wf size m = true) :
    Memory.wf size (Memory.store m a v) = true := by
  by_cases hv : v = 0#32
  · simpa [Memory.wf, Memory.store, hv] using Memory.wfFrom_erase a h
  · simpa [Memory.wf, Memory.store, hv] using Memory.wfFrom_insertCell ha hv (Nat.zero_le a) h

@[simp] theorem Memory.wf_nil (size : Nat) : Memory.wf size [] = true := rfl

/-- Loading words keeps the canonical form of a program memory. -/
theorem storeWords_wf (ws : List InstrWord) :
    ∀ {m : Memory} (a : Nat), Memory.wf Config.pmSize m = true → Memory.wf Config.pmSize (storeWords m a ws) = true := by
  induction ws with
  | nil => intro m a h; exact h
  | cons w ws ih =>
    intro m a h
    by_cases ha : a < Config.pmSize
    · simpa only [storeWords, ha, if_true] using ih (a + 1) (Memory.wf_store w ha h)
    · simpa only [storeWords, ha, if_false] using ih (a + 1) h

/-! ### Equal reads are equal memories -/

theorem Memory.lookup_below {size lo : Nat} {m : Memory} (h : Memory.wfFrom size lo m = true) {a : Nat} (ha : a < lo) :
    Memory.lookup m a = 0#32 := by
  induction m generalizing lo with
  | nil => rfl
  | cons c m ih =>
    obtain ⟨b, w⟩ := c
    rw [Memory.wfFrom_cons] at h
    have : a ≠ b := by omega
    simp [Memory.lookup, this, ih h.2.2.2 (by omega)]

theorem Memory.ext_from {size : Nat} : ∀ {m m' : Memory} {lo : Nat}, Memory.wfFrom size lo m = true →
    Memory.wfFrom size lo m' = true → (∀ a, Memory.lookup m a = Memory.lookup m' a) → m = m'
  | [], [], _, _, _, _ => rfl
  | [], (b, w) :: m', _, _, h', hr => by
    have := hr b
    rw [Memory.wfFrom_cons] at h'
    simp [Memory.lookup] at this
    exact absurd this.symm h'.2.2.1
  | (b, w) :: m, [], _, h, _, hr => by
    have := hr b
    rw [Memory.wfFrom_cons] at h
    simp [Memory.lookup] at this
    exact absurd this h.2.2.1
  | (b, w) :: m, (b', w') :: m', _, h, h', hr => by
    rw [Memory.wfFrom_cons] at h h'
    obtain ⟨_, _, hw, hm⟩ := h
    obtain ⟨_, _, hw', hm'⟩ := h'
    have hb : b = b' := by
      rcases Nat.lt_trichotomy b b' with hlt | he | hlt
      · have := hr b
        simp [Memory.lookup, Nat.ne_of_lt hlt, Memory.lookup_below hm' (show b < b' + 1 by omega)] at this
        exact absurd this hw
      · exact he
      · have := hr b'
        simp [Memory.lookup, Nat.ne_of_lt hlt, Memory.lookup_below hm (show b' < b + 1 by omega)] at this
        exact absurd this.symm hw'
    subst hb
    have hww : w = w' := by simpa [Memory.lookup] using hr b
    subst hww
    have htail : ∀ a, Memory.lookup m a = Memory.lookup m' a := by
      intro a
      by_cases ha : a = b
      · subst ha
        rw [Memory.lookup_below hm (Nat.lt_succ_self a), Memory.lookup_below hm' (Nat.lt_succ_self a)]
      · simpa [Memory.lookup, ha] using hr a
    rw [Memory.ext_from hm hm' htail]

/-- Canonical memories that read alike are the same data. -/
theorem Memory.ext {size : Nat} {m m' : Memory} (h : Memory.wf size m = true) (h' : Memory.wf size m' = true)
    (hr : ∀ a, Memory.lookup m a = Memory.lookup m' a) : m = m' :=
  Memory.ext_from h h' hr

end Sys2Proof.Machine
end

