-- ==== Sys2Proof/Laws/Stack.lean ====
section
/-! SUPPORT. What Push and Pop, and runs of them, do to the stack (20_memory.md R77, R78; 60_exceptions.md R273). -/

namespace Sys2Proof.Machine

@[simp] theorem Stack.empty_sp : Stack.empty.sp.val = 1024 := rfl
@[simp] theorem Stack.empty_cells : Stack.empty.cells = [] := rfl

theorem Stack.sp_le (st : Stack) : st.sp.val ≤ 1024 := Nat.lt_succ_iff.1 st.sp.isLt

/-- A push on a full stack changes nothing (R77). -/
theorem Stack.push_full {st : Stack} (v : Word) (h : st.sp.val = 0) : st.push v = st := by
  simp [Stack.push, h]

/-- A push with room: the pointer moves down by one (R77). -/
theorem Stack.push_sp {st : Stack} (v : Word) : (st.push v).sp.val = st.sp.val - 1 := by
  by_cases h : st.sp.val = 0 <;> simp [Stack.push, h]

/-- What a push does to every cell: the one below the old top receives the word, if there is one (R77). -/
theorem Stack.push_lookup (st : Stack) (v : Word) (a : Nat) :
    Memory.lookup (st.push v).cells a = if st.sp.val ≠ 0 ∧ a = st.sp.val - 1 then v else Memory.lookup st.cells a := by
  by_cases h : st.sp.val = 0 <;> simp [Stack.push, h, Memory.lookup_store]

/-- A push keeps the cells in canonical form. -/
theorem Stack.push_wf {st : Stack} (v : Word) (h : Memory.wf Config.stackDepth st.cells = true) :
    Memory.wf Config.stackDepth (st.push v).cells = true := by
  by_cases h0 : st.sp.val = 0
  · rwa [Stack.push_full v h0]
  · have := st.sp_le
    simp only [Stack.push, h0, dif_neg, not_false_eq_true]
    exact Memory.wf_store v (by simp only [Config.stackDepth]; omega) h

/-- A pop from an empty stack answers 0 and changes nothing (R78). -/
theorem Stack.pop_empty {st : Stack} (h : st.sp.val = 1024) : st.pop = (0#32, st) := by
  simp [Stack.pop, h]

/-- A pop answers the top word, or 0 from an empty stack (R78). -/
theorem Stack.pop_value (st : Stack) :
    st.pop.1 = if st.sp.val < 1024 then Memory.lookup st.cells st.sp.val else 0#32 := by
  by_cases h : st.sp.val < 1024 <;> simp [Stack.pop, h]

/-- A pop moves the pointer up by one, unless the stack is empty (R78). -/
theorem Stack.pop_sp (st : Stack) : st.pop.2.sp.val = min (st.sp.val + 1) 1024 := by
  have := st.sp_le
  by_cases h : st.sp.val < 1024
  · simp [Stack.pop, h]
  · simp [Stack.pop, h]
    omega

/-- A pop leaves every cell as it is (R78). -/
@[simp] theorem Stack.pop_cells (st : Stack) : st.pop.2.cells = st.cells := by
  by_cases h : st.sp.val < 1024 <;> simp [Stack.pop, h]

/-! ### Runs of pushes -/

@[simp] theorem Stack.pushAll_nil (st : Stack) : Stack.pushAll [] st = st := rfl
@[simp] theorem Stack.pushAll_cons (w : Word) (ws : List Word) (st : Stack) :
    Stack.pushAll (w :: ws) st = Stack.pushAll ws (st.push w) := rfl

/-- A run of pushes moves the pointer down by its length, as far as there is room (R273). -/
theorem Stack.pushAll_sp (ws : List Word) : ∀ st : Stack, (Stack.pushAll ws st).sp.val = st.sp.val - ws.length := by
  induction ws with
  | nil => intro st; simp
  | cons w ws ih =>
    intro st
    rw [Stack.pushAll_cons, ih, Stack.push_sp, List.length_cons]
    omega

/-- What a run of pushes does to every cell: word j lands in cell `sp - 1 - j` while there is room, the words after
that are dropped, every other cell keeps its word (R77, R271, R273). -/
theorem Stack.pushAll_lookup (ws : List Word) : ∀ (st : Stack) (a : Nat),
    Memory.lookup (Stack.pushAll ws st).cells a =
      if a < st.sp.val ∧ st.sp.val - 1 - a < ws.length then ws.getD (st.sp.val - 1 - a) 0#32
      else Memory.lookup st.cells a := by
  induction ws with
  | nil => intro st a; simp
  | cons w ws ih =>
    intro st a
    rw [Stack.pushAll_cons, ih, Stack.push_sp, Stack.push_lookup]
    by_cases h0 : st.sp.val = 0
    · simp [h0]
    · by_cases ha : a = st.sp.val - 1
      · subst ha
        simp [h0]
        intro _; omega
      · by_cases hlt : a < st.sp.val
        · have e : st.sp.val - 1 - a = (st.sp.val - 1 - 1 - a) + 1 := by omega
          have h1 : a < st.sp.val - 1 := by omega
          simp only [hlt, h1, ha, true_and, and_false, if_false, List.length_cons]
          rw [e, List.getD_cons_succ]
          simp only [Nat.add_lt_add_iff_right]
        · have h1 : ¬ a < st.sp.val - 1 := by omega
          simp [hlt, h1, ha]

theorem Stack.pushAll_wf (ws : List Word) : ∀ {st : Stack}, Memory.wf Config.stackDepth st.cells = true →
    Memory.wf Config.stackDepth (Stack.pushAll ws st).cells = true := by
  induction ws with
  | nil => intro st h; exact h
  | cons w ws ih => intro st h; exact ih (Stack.push_wf w h)

/-! ### Runs of pops -/

@[simp] theorem Stack.popMany_length (k : Nat) : ∀ st : Stack, (Stack.popMany k st).1.length = k := by
  induction k with
  | zero => intro st; rfl
  | succ k ih => intro st; simp [Stack.popMany, ih]

/-- The j-th popped word is the one j places above the pointer, 0 where the stack has run out (R78, R275). -/
theorem Stack.popMany_get (k : Nat) : ∀ (st : Stack) (j : Nat), j < k →
    (Stack.popMany k st).1.getD j 0#32 =
      if st.sp.val + j < 1024 then Memory.lookup st.cells (st.sp.val + j) else 0#32 := by
  induction k with
  | zero => intro st j h; omega
  | succ k ih =>
    intro st j h
    cases j with
    | zero => simpa [Stack.popMany] using Stack.pop_value st
    | succ j =>
      have hs := st.sp_le
      simp only [Stack.popMany, List.getD_cons_succ]
      rw [ih _ _ (by omega), Stack.pop_sp, Stack.pop_cells]
      by_cases hlt : st.sp.val < 1024
      · have e : min (st.sp.val + 1) 1024 + j = st.sp.val + (j + 1) := by omega
        rw [e]
      · have e1 : ¬ min (st.sp.val + 1) 1024 + j < 1024 := by omega
        have e2 : ¬ st.sp.val + (j + 1) < 1024 := by omega
        rw [if_neg e1, if_neg e2]

/-- A run of pops moves the pointer up by its length, as far as the empty sentinel. -/
theorem Stack.popMany_sp (k : Nat) : ∀ st : Stack, (Stack.popMany k st).2.sp.val = min (st.sp.val + k) 1024 := by
  induction k with
  | zero => intro st; have := st.sp_le; simp [Stack.popMany]; omega
  | succ k ih =>
    intro st
    have := st.sp_le
    simp only [Stack.popMany]
    rw [ih, Stack.pop_sp]
    omega

@[simp] theorem Stack.popMany_cells (k : Nat) : ∀ st : Stack, (Stack.popMany k st).2.cells = st.cells := by
  induction k with
  | zero => intro st; rfl
  | succ k ih => intro st; simp [Stack.popMany, ih]

/-- Two stacks with one pointer and the same cells are one stack. -/
theorem Stack.eq_of {st st' : Stack} (h : st'.sp.val = st.sp.val) (hc : st'.cells = st.cells) : st' = st := by
  cases st; cases st'
  simp only [Stack.mk.injEq]
  exact ⟨hc, Fin.ext h⟩

end Sys2Proof.Machine
end

