-- ==== Sys2Proof/Laws/Ops.lean ====
section
/-! SUPPORT. What each shared operation does, said once: data memory (20_memory.md R64, R65), the machine's pushes and pops,
reset (70_reset_and_hazards.md R300), the boundary step and the return from an interrupt (60_exceptions.md). -/

namespace Sys2Proof.Machine

variable (s : State)

/-! ### Data memory -/

/-- What a write does to every read: the cell written reads back, every other cell and every address out of range
reads as before (R64, R65). -/
theorem memRead_memWrite (a b : Nat) (v : Word) :
    memRead (memWrite a v s) b = if b = a ∧ a < 512 then v else memRead s b := by
  by_cases ha : a < 512
  · by_cases hb : b < 512
    · simp [memRead, memWrite, ha, hb, Memory.lookup_store]
    · have : b ≠ a := by omega
      simp [memRead, ha, hb, this]
  · simp [memWrite, ha]

theorem memRead_memWrite_other {a b : Nat} (v : Word) (h : b ≠ a) : memRead (memWrite a v s) b = memRead s b := by
  simp [memRead_memWrite, h]

theorem memRead_memWrite_same {a : Nat} (v : Word) (h : a < 512) : memRead (memWrite a v s) a = v := by
  simp [memRead_memWrite, h]

/-- A read depends on data memory alone. -/
theorem memRead_congr {s t : State} (h : t.dm = s.dm) (a : Nat) : memRead t a = memRead s a := by
  simp [memRead, h]

/-- A write to data memory keeps its canonical form. -/
theorem memWrite_wf (a : Nat) (v : Word) (h : Memory.wf Config.dmSize s.dm = true) :
    Memory.wf Config.dmSize (memWrite a v s).dm = true := by
  by_cases ha : a < Config.dmSize
  · simpa [memWrite, ha] using Memory.wf_store v ha h
  · simpa [memWrite, ha] using h

@[simp] theorem memWrite_regs (a : Nat) (v : Word) : (memWrite a v s).regs = s.regs := by
  by_cases h : a < 512 <;> simp [memWrite, h]
@[simp] theorem memWrite_pc (a : Nat) (v : Word) : (memWrite a v s).pc = s.pc := by
  by_cases h : a < 512 <;> simp [memWrite, h]
@[simp] theorem memWrite_sr (a : Nat) (v : Word) : (memWrite a v s).sr = s.sr := by
  by_cases h : a < 512 <;> simp [memWrite, h]
@[simp] theorem memWrite_ir (a : Nat) (v : Word) : (memWrite a v s).ir = s.ir := by
  by_cases h : a < 512 <;> simp [memWrite, h]
@[simp] theorem memWrite_opc (a : Nat) (v : Word) : (memWrite a v s).opc = s.opc := by
  by_cases h : a < 512 <;> simp [memWrite, h]
@[simp] theorem memWrite_op1 (a : Nat) (v : Word) : (memWrite a v s).op1 = s.op1 := by
  by_cases h : a < 512 <;> simp [memWrite, h]
@[simp] theorem memWrite_op2 (a : Nat) (v : Word) : (memWrite a v s).op2 = s.op2 := by
  by_cases h : a < 512 <;> simp [memWrite, h]
@[simp] theorem memWrite_execState (a : Nat) (v : Word) : (memWrite a v s).execState = s.execState := by
  by_cases h : a < 512 <;> simp [memWrite, h]
@[simp] theorem memWrite_prev (a : Nat) (v : Word) : (memWrite a v s).prev = s.prev := by
  by_cases h : a < 512 <;> simp [memWrite, h]
@[simp] theorem memWrite_lfa (a : Nat) (v : Word) : (memWrite a v s).lfa = s.lfa := by
  by_cases h : a < 512 <;> simp [memWrite, h]
@[simp] theorem memWrite_pm (a : Nat) (v : Word) : (memWrite a v s).pm = s.pm := by
  by_cases h : a < 512 <;> simp [memWrite, h]
@[simp] theorem memWrite_stack (a : Nat) (v : Word) : (memWrite a v s).stack = s.stack := by
  by_cases h : a < 512 <;> simp [memWrite, h]
@[simp] theorem memWrite_pinIn (a : Nat) (v : Word) : (memWrite a v s).pinIn = s.pinIn := by
  by_cases h : a < 512 <;> simp [memWrite, h]
@[simp] theorem memWrite_inputs (a : Nat) (v : Word) : (memWrite a v s).inputs = s.inputs := by
  by_cases h : a < 512 <;> simp [memWrite, h]
@[simp] theorem memWrite_reg (a : Nat) (v : Word) (i : Reg) : (memWrite a v s).reg i = s.reg i :=
  State.reg_congr (memWrite_regs s a v) i
@[simp] theorem memWrite_flagI (a : Nat) (v : Word) : (memWrite a v s).flagI = s.flagI := by
  simp [State.flagI]
@[simp] theorem memWrite_aluFlags (a : Nat) (v : Word) : (memWrite a v s).aluFlags = s.aluFlags :=
  (flags_congr (memWrite_sr s a v)).2

/-! Reads of data memory see none of the other updates. -/

@[simp] theorem memRead_setReg (i : Reg) (v : Word) (k : Nat) : memRead (s.setReg i v) k = memRead s k := rfl
@[simp] theorem memRead_setRegs (v : Vector Word 32) (k : Nat) : memRead (s.setRegs v) k = memRead s k := rfl
@[simp] theorem memRead_setPc (v : Word) (k : Nat) : memRead (s.setPc v) k = memRead s k := rfl
@[simp] theorem memRead_setSr (v : BitVec 6) (k : Nat) : memRead (s.setSr v) k = memRead s k := rfl
@[simp] theorem memRead_setLatches (w : InstrWord) (c d : BitVec 8) (e : BitVec 16) (k : Nat) : memRead (s.setLatches w c d e) k = memRead s k := rfl
@[simp] theorem memRead_setExecState (v : ExecState) (k : Nat) : memRead (s.setExecState v) k = memRead s k := rfl
@[simp] theorem memRead_setPrev (v : Vector Word 3) (k : Nat) : memRead (s.setPrev v) k = memRead s k := rfl
@[simp] theorem memRead_setStack (v : Stack) (k : Nat) : memRead (s.setStack v) k = memRead s k := rfl
@[simp] theorem memRead_setHost (p : Vector Word 3) (l : List HostInput) (k : Nat) : memRead (s.setHost p l) k = memRead s k := rfl
@[simp] theorem memRead_setFlagsSNZVC (f : AluFlags) (k : Nat) : memRead (setFlagsSNZVC f s) k = memRead s k := rfl
@[simp] theorem memRead_setFlagI (b : Bool) (k : Nat) : memRead (setFlagI b s) k = memRead s k := rfl

/-! ### Push and Pop of the machine -/

@[simp] theorem pushWord_stack (v : Word) : (pushWord v s).stack = s.stack.push v := rfl
@[simp] theorem popState_stack : (popState s).stack = s.stack.pop.2 := rfl
@[simp] theorem pushWord_regs (v : Word) : (pushWord v s).regs = s.regs := rfl
@[simp] theorem pushWord_pc (v : Word) : (pushWord v s).pc = s.pc := rfl
@[simp] theorem pushWord_sr (v : Word) : (pushWord v s).sr = s.sr := rfl
@[simp] theorem pushWord_ir (v : Word) : (pushWord v s).ir = s.ir := rfl
@[simp] theorem pushWord_opc (v : Word) : (pushWord v s).opc = s.opc := rfl
@[simp] theorem pushWord_op1 (v : Word) : (pushWord v s).op1 = s.op1 := rfl
@[simp] theorem pushWord_op2 (v : Word) : (pushWord v s).op2 = s.op2 := rfl
@[simp] theorem pushWord_execState (v : Word) : (pushWord v s).execState = s.execState := rfl
@[simp] theorem pushWord_prev (v : Word) : (pushWord v s).prev = s.prev := rfl
@[simp] theorem pushWord_lfa (v : Word) : (pushWord v s).lfa = s.lfa := rfl
@[simp] theorem pushWord_pm (v : Word) : (pushWord v s).pm = s.pm := rfl
@[simp] theorem pushWord_dm (v : Word) : (pushWord v s).dm = s.dm := rfl
@[simp] theorem pushWord_pinIn (v : Word) : (pushWord v s).pinIn = s.pinIn := rfl
@[simp] theorem pushWord_inputs (v : Word) : (pushWord v s).inputs = s.inputs := rfl
@[simp] theorem pushWord_reg (v : Word) (i : Reg) : (pushWord v s).reg i = s.reg i := rfl
@[simp] theorem memRead_pushWord (v : Word) (k : Nat) : memRead (pushWord v s) k = memRead s k := rfl
@[simp] theorem popState_regs : (popState s).regs = s.regs := rfl
@[simp] theorem popState_pc : (popState s).pc = s.pc := rfl
@[simp] theorem popState_sr : (popState s).sr = s.sr := rfl
@[simp] theorem popState_ir : (popState s).ir = s.ir := rfl
@[simp] theorem popState_opc : (popState s).opc = s.opc := rfl
@[simp] theorem popState_op1 : (popState s).op1 = s.op1 := rfl
@[simp] theorem popState_op2 : (popState s).op2 = s.op2 := rfl
@[simp] theorem popState_execState : (popState s).execState = s.execState := rfl
@[simp] theorem popState_prev : (popState s).prev = s.prev := rfl
@[simp] theorem popState_lfa : (popState s).lfa = s.lfa := rfl
@[simp] theorem popState_pm : (popState s).pm = s.pm := rfl
@[simp] theorem popState_dm : (popState s).dm = s.dm := rfl
@[simp] theorem popState_pinIn : (popState s).pinIn = s.pinIn := rfl
@[simp] theorem popState_inputs : (popState s).inputs = s.inputs := rfl
@[simp] theorem popState_reg (i : Reg) : (popState s).reg i = s.reg i := rfl
@[simp] theorem memRead_popState (k : Nat) : memRead (popState s) k = memRead s k := rfl

/-! ### Reset -/

@[simp] theorem resetMachine_pm : (resetMachine s).pm = s.pm := rfl
@[simp] theorem resetMachine_pinIn : (resetMachine s).pinIn = s.pinIn := rfl
@[simp] theorem resetMachine_inputs : (resetMachine s).inputs = s.inputs := rfl
@[simp] theorem resetMachine_regs : (resetMachine s).regs = State.reset.regs := rfl
@[simp] theorem resetMachine_pc : (resetMachine s).pc = State.reset.pc := rfl
@[simp] theorem resetMachine_sr : (resetMachine s).sr = State.reset.sr := rfl
@[simp] theorem resetMachine_ir : (resetMachine s).ir = State.reset.ir := rfl
@[simp] theorem resetMachine_opc : (resetMachine s).opc = State.reset.opc := rfl
@[simp] theorem resetMachine_op1 : (resetMachine s).op1 = State.reset.op1 := rfl
@[simp] theorem resetMachine_op2 : (resetMachine s).op2 = State.reset.op2 := rfl
@[simp] theorem resetMachine_execState : (resetMachine s).execState = State.reset.execState := rfl
@[simp] theorem resetMachine_prev : (resetMachine s).prev = State.reset.prev := rfl
@[simp] theorem resetMachine_lfa : (resetMachine s).lfa = State.reset.lfa := rfl
@[simp] theorem resetMachine_dm : (resetMachine s).dm = State.reset.dm := rfl
@[simp] theorem resetMachine_stack : (resetMachine s).stack = State.reset.stack := rfl
@[simp] theorem resetMachine_reg (i : Reg) : (resetMachine s).reg i = 0#32 := State.reset_reg i
@[simp] theorem memRead_resetMachine (k : Nat) : memRead (resetMachine s) k = 0#32 := by
  simp [memRead]

/-! ### The addresses of the memory-mapped registers are pairwise different and in range (R71) -/

theorem pinAddr_lt (n : Port) : pinAddr n < 9 := by unfold pinAddr; omega
theorem portAddr_lt (n : Port) : portAddr n < 9 := by unfold portAddr; omega
@[simp] theorem icrAddr_val : icrAddr = 9 := rfl
@[simp] theorem ifrAddr_val : ifrAddr = 10 := rfl
theorem imskAddr_val (n : Port) : imskAddr n = 11 + n.val := rfl
@[simp] theorem toggleAddr_val : toggleAddr = 2 := rfl
theorem pinAddr_inj {m n : Port} (h : pinAddr m = pinAddr n) : m = n := by
  unfold pinAddr at h
  exact Fin.ext (by omega)

/-! ### Pin sample -/

@[simp] theorem memRead_samplePin_pin (n : Port) : memRead (samplePin n s) (pinAddr n) = s.pinIn.get n :=
  memRead_memWrite_same s _ (by have := pinAddr_lt n; omega)

theorem memRead_samplePin_other (n : Port) {a : Nat} (h : a ≠ pinAddr n) :
    memRead (samplePin n s) a = memRead s a :=
  memRead_memWrite_other s _ h

@[simp] theorem samplePin_regs (n : Port) : (samplePin n s).regs = s.regs := by
  simp [samplePin]
@[simp] theorem samplePin_pc (n : Port) : (samplePin n s).pc = s.pc := by
  simp [samplePin]
@[simp] theorem samplePin_sr (n : Port) : (samplePin n s).sr = s.sr := by
  simp [samplePin]
@[simp] theorem samplePin_ir (n : Port) : (samplePin n s).ir = s.ir := by
  simp [samplePin]
@[simp] theorem samplePin_opc (n : Port) : (samplePin n s).opc = s.opc := by
  simp [samplePin]
@[simp] theorem samplePin_op1 (n : Port) : (samplePin n s).op1 = s.op1 := by
  simp [samplePin]
@[simp] theorem samplePin_op2 (n : Port) : (samplePin n s).op2 = s.op2 := by
  simp [samplePin]
@[simp] theorem samplePin_execState (n : Port) : (samplePin n s).execState = s.execState := by
  simp [samplePin]
@[simp] theorem samplePin_prev (n : Port) : (samplePin n s).prev = s.prev := by
  simp [samplePin]
@[simp] theorem samplePin_lfa (n : Port) : (samplePin n s).lfa = s.lfa := by
  simp [samplePin]
@[simp] theorem samplePin_pm (n : Port) : (samplePin n s).pm = s.pm := by
  simp [samplePin]
@[simp] theorem samplePin_stack (n : Port) : (samplePin n s).stack = s.stack := by
  simp [samplePin]
@[simp] theorem samplePin_pinIn (n : Port) : (samplePin n s).pinIn = s.pinIn := by
  simp [samplePin]
@[simp] theorem samplePin_inputs (n : Port) : (samplePin n s).inputs = s.inputs := by
  simp [samplePin]
@[simp] theorem samplePin_reg (n : Port) (i : Reg) : (samplePin n s).reg i = s.reg i := memWrite_reg s _ _ i

/-- What the pin sample does to every read of data memory: each PINn reads the level of its port, every other cell reads
as before (R265). -/
theorem memRead_samplePins (a : Nat) :
    memRead (samplePins s) a =
      if a = 2 then s.pinIn.get 0 else if a = 5 then s.pinIn.get 1 else if a = 8 then s.pinIn.get 2 else memRead s a := by
  by_cases h2 : a = 8
  · subst h2
    exact memRead_samplePin_pin _ 2
  · rw [samplePins, memRead_samplePin_other _ 2 (by simpa [pinAddr] using h2)]
    by_cases h1 : a = 5
    · subst h1
      exact memRead_samplePin_pin _ 1
    · rw [memRead_samplePin_other _ 1 (by simpa [pinAddr] using h1)]
      by_cases h0 : a = 2
      · subst h0
        exact memRead_samplePin_pin _ 0
      · rw [memRead_samplePin_other _ 0 (by simpa [pinAddr] using h0)]
        simp [h0, h1, h2]

@[simp] theorem samplePins_regs  : (samplePins s).regs = s.regs := by
  simp [samplePins]
@[simp] theorem samplePins_pc  : (samplePins s).pc = s.pc := by
  simp [samplePins]
@[simp] theorem samplePins_sr  : (samplePins s).sr = s.sr := by
  simp [samplePins]
@[simp] theorem samplePins_ir  : (samplePins s).ir = s.ir := by
  simp [samplePins]
@[simp] theorem samplePins_opc  : (samplePins s).opc = s.opc := by
  simp [samplePins]
@[simp] theorem samplePins_op1  : (samplePins s).op1 = s.op1 := by
  simp [samplePins]
@[simp] theorem samplePins_op2  : (samplePins s).op2 = s.op2 := by
  simp [samplePins]
@[simp] theorem samplePins_execState  : (samplePins s).execState = s.execState := by
  simp [samplePins]
@[simp] theorem samplePins_prev  : (samplePins s).prev = s.prev := by
  simp [samplePins]
@[simp] theorem samplePins_lfa  : (samplePins s).lfa = s.lfa := by
  simp [samplePins]
@[simp] theorem samplePins_pm  : (samplePins s).pm = s.pm := by
  simp [samplePins]
@[simp] theorem samplePins_stack  : (samplePins s).stack = s.stack := by
  simp [samplePins]
@[simp] theorem samplePins_pinIn  : (samplePins s).pinIn = s.pinIn := by
  simp [samplePins]
@[simp] theorem samplePins_inputs  : (samplePins s).inputs = s.inputs := by
  simp [samplePins]
@[simp] theorem samplePins_reg (i : Reg) : (samplePins s).reg i = s.reg i := State.reg_congr (samplePins_regs s) i

/-! ### Edge detection -/

/-- What edge detection of one port does to every read: IFR gains the port's bit if a masked pin changed, every other
cell reads as before (R266). -/
theorem memRead_detectEdge (n : Port) (a : Nat) :
    memRead (detectEdge n s) a =
      if a = 10 ∧ changedPins n s ≠ 0#32 then memRead s 10 ||| sourceBit n else memRead s a := by
  unfold detectEdge recordSample raiseFlag
  by_cases h : changedPins n s = 0#32
  · simp [h]
  · simp [h, memRead_memWrite]

/-- PREV of the detected port takes the whole new sample, masked or not; the others keep theirs (R266). -/
theorem detectEdge_prev (n k : Port) :
    (detectEdge n s).prev.get k = if k = n then memRead s (pinAddr n) else s.prev.get k := by
  have hp : memRead (raiseFlag n s) (pinAddr n) = memRead s (pinAddr n) :=
    memRead_memWrite_other s _ (by have := pinAddr_lt n; simp only [ifrAddr_val]; omega)
  have hr : (raiseFlag n s).prev = s.prev := memWrite_prev s _ _
  have key : ∀ u : State, memRead u (pinAddr n) = memRead s (pinAddr n) → u.prev = s.prev →
      (recordSample n u).prev.get k = if k = n then memRead s (pinAddr n) else s.prev.get k := by
    intro u h1 h2
    simp only [recordSample, State.setPrev_prev, h1, h2, Vector.get_eq_getElem]
    by_cases hk : k = n
    · subst hk; simp
    · have : n.val ≠ k.val := fun e => hk (Fin.ext e.symm)
      simp [hk, this]
  unfold detectEdge
  split
  · exact key s rfl rfl
  · exact key _ hp hr

@[simp] theorem detectEdge_regs (n : Port) : (detectEdge n s).regs = s.regs := by
  unfold detectEdge; split <;> simp [recordSample, raiseFlag]
@[simp] theorem detectEdge_pc (n : Port) : (detectEdge n s).pc = s.pc := by
  unfold detectEdge; split <;> simp [recordSample, raiseFlag]
@[simp] theorem detectEdge_sr (n : Port) : (detectEdge n s).sr = s.sr := by
  unfold detectEdge; split <;> simp [recordSample, raiseFlag]
@[simp] theorem detectEdge_ir (n : Port) : (detectEdge n s).ir = s.ir := by
  unfold detectEdge; split <;> simp [recordSample, raiseFlag]
@[simp] theorem detectEdge_opc (n : Port) : (detectEdge n s).opc = s.opc := by
  unfold detectEdge; split <;> simp [recordSample, raiseFlag]
@[simp] theorem detectEdge_op1 (n : Port) : (detectEdge n s).op1 = s.op1 := by
  unfold detectEdge; split <;> simp [recordSample, raiseFlag]
@[simp] theorem detectEdge_op2 (n : Port) : (detectEdge n s).op2 = s.op2 := by
  unfold detectEdge; split <;> simp [recordSample, raiseFlag]
@[simp] theorem detectEdge_execState (n : Port) : (detectEdge n s).execState = s.execState := by
  unfold detectEdge; split <;> simp [recordSample, raiseFlag]
@[simp] theorem detectEdge_lfa (n : Port) : (detectEdge n s).lfa = s.lfa := by
  unfold detectEdge; split <;> simp [recordSample, raiseFlag]
@[simp] theorem detectEdge_pm (n : Port) : (detectEdge n s).pm = s.pm := by
  unfold detectEdge; split <;> simp [recordSample, raiseFlag]
@[simp] theorem detectEdge_stack (n : Port) : (detectEdge n s).stack = s.stack := by
  unfold detectEdge; split <;> simp [recordSample, raiseFlag]
@[simp] theorem detectEdge_pinIn (n : Port) : (detectEdge n s).pinIn = s.pinIn := by
  unfold detectEdge; split <;> simp [recordSample, raiseFlag]
@[simp] theorem detectEdge_inputs (n : Port) : (detectEdge n s).inputs = s.inputs := by
  unfold detectEdge; split <;> simp [recordSample, raiseFlag]
@[simp] theorem detectEdge_reg (n : Port) (i : Reg) : (detectEdge n s).reg i = s.reg i :=
  State.reg_congr (detectEdge_regs s n) i

@[simp] theorem detectEdges_regs  : (detectEdges s).regs = s.regs := by
  simp [detectEdges]
@[simp] theorem detectEdges_pc  : (detectEdges s).pc = s.pc := by
  simp [detectEdges]
@[simp] theorem detectEdges_sr  : (detectEdges s).sr = s.sr := by
  simp [detectEdges]
@[simp] theorem detectEdges_ir  : (detectEdges s).ir = s.ir := by
  simp [detectEdges]
@[simp] theorem detectEdges_opc  : (detectEdges s).opc = s.opc := by
  simp [detectEdges]
@[simp] theorem detectEdges_op1  : (detectEdges s).op1 = s.op1 := by
  simp [detectEdges]
@[simp] theorem detectEdges_op2  : (detectEdges s).op2 = s.op2 := by
  simp [detectEdges]
@[simp] theorem detectEdges_execState  : (detectEdges s).execState = s.execState := by
  simp [detectEdges]
@[simp] theorem detectEdges_lfa  : (detectEdges s).lfa = s.lfa := by
  simp [detectEdges]
@[simp] theorem detectEdges_pm  : (detectEdges s).pm = s.pm := by
  simp [detectEdges]
@[simp] theorem detectEdges_stack  : (detectEdges s).stack = s.stack := by
  simp [detectEdges]
@[simp] theorem detectEdges_pinIn  : (detectEdges s).pinIn = s.pinIn := by
  simp [detectEdges]
@[simp] theorem detectEdges_inputs  : (detectEdges s).inputs = s.inputs := by
  simp [detectEdges]
@[simp] theorem detectEdges_reg (i : Reg) : (detectEdges s).reg i = s.reg i := State.reg_congr (detectEdges_regs s) i

/-! ### Dispatch -/

theorem contextWords_length : (contextWords s).length = 42 := by simp [contextWords]

@[simp] theorem dispatchInterrupt_pc (n : Port) : (dispatchInterrupt n s).pc = ivec n := rfl
@[simp] theorem dispatchInterrupt_flagI (n : Port) : (dispatchInterrupt n s).flagI = false :=
  setFlagI_flagI _ false
@[simp] theorem dispatchInterrupt_aluFlags (n : Port) : (dispatchInterrupt n s).aluFlags = s.aluFlags :=
  (setFlagI_aluFlags _ false).trans (memWrite_aluFlags s _ _)

/-- The context is that of the state before the pending bit is cleared: clearing it changes no saved item (R270). -/
theorem dispatchInterrupt_stack (n : Port) :
    (dispatchInterrupt n s).stack = s.stack.pushAll (contextWords s) := by
  simp [dispatchInterrupt, saveContext, clearFlag, contextWords]

/-- What a dispatch does to every stack cell: context word j lands `j + 1` below the old pointer while there is room, every other
cell keeps its word (R270, R271, R273). -/
theorem dispatchInterrupt_lookup (n : Port) (a : Nat) :
    Memory.lookup (dispatchInterrupt n s).stack.cells a =
      if a < s.stack.sp.val ∧ s.stack.sp.val - 1 - a < 42 then (contextWords s).getD (s.stack.sp.val - 1 - a) 0#32
      else Memory.lookup s.stack.cells a := by
  rw [dispatchInterrupt_stack, Stack.pushAll_lookup, contextWords_length]

/-- A dispatch moves the pointer down by 42, as far as there is room (R271, R273). -/
theorem dispatchInterrupt_sp (n : Port) : (dispatchInterrupt n s).stack.sp.val = s.stack.sp.val - 42 := by
  rw [dispatchInterrupt_stack, Stack.pushAll_sp, contextWords_length]

/-- Context words 7 to 9 are PREV (R271). -/
theorem contextWords_prev (k : Port) : (contextWords s).getD (7 + k.val) 0#32 = s.prev.get k := by
  match k with
  | 0 => simp [contextWords, Vector.get_eq_getElem, List.getD_eq_getElem?_getD]
  | 1 => simp [contextWords, Vector.get_eq_getElem, List.getD_eq_getElem?_getD]
  | 2 => simp [contextWords, Vector.get_eq_getElem, List.getD_eq_getElem?_getD]

/-- Context words 10 to 41 are the registers (R271). -/
theorem contextWords_reg (r : Reg) : (contextWords s).getD (10 + r.val) 0#32 = s.reg r := by
  have : 10 + r.val - 7 - 3 = r.val := by omega
  simp only [contextWords, State.reg, Vector.get_eq_getElem, List.getD_eq_getElem?_getD]
  rw [List.getElem?_append_right (by simp)]
  simp

/-- What a dispatch does to every read of data memory: IFR loses the source's bit (R270 step 1). -/
theorem memRead_dispatchInterrupt (n : Port) (a : Nat) :
    memRead (dispatchInterrupt n s) a = if a = 10 then memRead s 10 &&& ~~~ sourceBit n else memRead s a := by
  simp [dispatchInterrupt, saveContext, clearFlag, memRead_memWrite]

@[simp] theorem dispatchInterrupt_regs (n : Port) : (dispatchInterrupt n s).regs = s.regs := by
  simp [dispatchInterrupt, saveContext, clearFlag]
@[simp] theorem dispatchInterrupt_ir (n : Port) : (dispatchInterrupt n s).ir = s.ir := by
  simp [dispatchInterrupt, saveContext, clearFlag]
@[simp] theorem dispatchInterrupt_opc (n : Port) : (dispatchInterrupt n s).opc = s.opc := by
  simp [dispatchInterrupt, saveContext, clearFlag]
@[simp] theorem dispatchInterrupt_op1 (n : Port) : (dispatchInterrupt n s).op1 = s.op1 := by
  simp [dispatchInterrupt, saveContext, clearFlag]
@[simp] theorem dispatchInterrupt_op2 (n : Port) : (dispatchInterrupt n s).op2 = s.op2 := by
  simp [dispatchInterrupt, saveContext, clearFlag]
@[simp] theorem dispatchInterrupt_execState (n : Port) : (dispatchInterrupt n s).execState = s.execState := by
  simp [dispatchInterrupt, saveContext, clearFlag]
@[simp] theorem dispatchInterrupt_prev (n : Port) : (dispatchInterrupt n s).prev = s.prev := by
  simp [dispatchInterrupt, saveContext, clearFlag]
@[simp] theorem dispatchInterrupt_lfa (n : Port) : (dispatchInterrupt n s).lfa = s.lfa := by
  simp [dispatchInterrupt, saveContext, clearFlag]
@[simp] theorem dispatchInterrupt_pm (n : Port) : (dispatchInterrupt n s).pm = s.pm := by
  simp [dispatchInterrupt, saveContext, clearFlag]
@[simp] theorem dispatchInterrupt_pinIn (n : Port) : (dispatchInterrupt n s).pinIn = s.pinIn := by
  simp [dispatchInterrupt, saveContext, clearFlag]
@[simp] theorem dispatchInterrupt_inputs (n : Port) : (dispatchInterrupt n s).inputs = s.inputs := by
  simp [dispatchInterrupt, saveContext, clearFlag]
@[simp] theorem dispatchInterrupt_reg (n : Port) (i : Reg) : (dispatchInterrupt n s).reg i = s.reg i :=
  State.reg_congr (dispatchInterrupt_regs s n) i

/-- A boundary step is the pin sample and the edge detection, and then either nothing or one dispatch (R264, R269). -/
theorem boundary_cases :
    (selectSource (detectEdges (samplePins s)) = none ∧ boundary s = detectEdges (samplePins s)) ∨
      ∃ n, selectSource (detectEdges (samplePins s)) = some n ∧
        boundary s = dispatchInterrupt n (detectEdges (samplePins s)) := by
  unfold boundary
  cases h : selectSource (detectEdges (samplePins s)) with
  | none => exact .inl ⟨rfl, rfl⟩
  | some n => exact .inr ⟨n, rfl, rfl⟩

@[simp] theorem boundary_regs : (boundary s).regs = s.regs := by
  rcases boundary_cases s with ⟨_, h⟩ | ⟨n, _, h⟩ <;> simp [h]
@[simp] theorem boundary_ir : (boundary s).ir = s.ir := by
  rcases boundary_cases s with ⟨_, h⟩ | ⟨n, _, h⟩ <;> simp [h]
@[simp] theorem boundary_opc : (boundary s).opc = s.opc := by
  rcases boundary_cases s with ⟨_, h⟩ | ⟨n, _, h⟩ <;> simp [h]
@[simp] theorem boundary_op1 : (boundary s).op1 = s.op1 := by
  rcases boundary_cases s with ⟨_, h⟩ | ⟨n, _, h⟩ <;> simp [h]
@[simp] theorem boundary_op2 : (boundary s).op2 = s.op2 := by
  rcases boundary_cases s with ⟨_, h⟩ | ⟨n, _, h⟩ <;> simp [h]
@[simp] theorem boundary_execState : (boundary s).execState = s.execState := by
  rcases boundary_cases s with ⟨_, h⟩ | ⟨n, _, h⟩ <;> simp [h]
@[simp] theorem boundary_lfa : (boundary s).lfa = s.lfa := by
  rcases boundary_cases s with ⟨_, h⟩ | ⟨n, _, h⟩ <;> simp [h]
@[simp] theorem boundary_pm : (boundary s).pm = s.pm := by
  rcases boundary_cases s with ⟨_, h⟩ | ⟨n, _, h⟩ <;> simp [h]
@[simp] theorem boundary_pinIn : (boundary s).pinIn = s.pinIn := by
  rcases boundary_cases s with ⟨_, h⟩ | ⟨n, _, h⟩ <;> simp [h]
@[simp] theorem boundary_inputs : (boundary s).inputs = s.inputs := by
  rcases boundary_cases s with ⟨_, h⟩ | ⟨n, _, h⟩ <;> simp [h]
@[simp] theorem boundary_reg (i : Reg) : (boundary s).reg i = s.reg i := State.reg_congr (boundary_regs s) i

/-! ### Return -/

@[simp] theorem restoreContext_stack : (restoreContext s).stack = (Stack.popMany 42 s.stack).2 := by
  simp [restoreContext, loadContext]
@[simp] theorem restoreContext_reg (i : Reg) :
    (restoreContext s).reg i = contextWord (poppedContext s) (10 + i.val) := by
  simp [restoreContext, loadContext, State.reg, Vector.get_eq_getElem]
@[simp] theorem restoreContext_prev (k : Port) :
    (restoreContext s).prev.get k = contextWord (poppedContext s) (7 + k.val) := by
  simp [restoreContext, loadContext, Vector.get_eq_getElem]
@[simp] theorem restoreContext_pc : (restoreContext s).pc = contextWord (poppedContext s) 0 := by
  simp [restoreContext, loadContext]
@[simp] theorem restoreContext_ir : (restoreContext s).ir = contextWord (poppedContext s) 1 := by
  simp [restoreContext, loadContext]
@[simp] theorem restoreContext_sr : (restoreContext s).sr = (contextWord (poppedContext s) 2).setWidth 6 := by
  simp [restoreContext, loadContext]
@[simp] theorem restoreContext_opc : (restoreContext s).opc = (contextWord (poppedContext s) 3).setWidth 8 := by
  simp [restoreContext, loadContext]
@[simp] theorem restoreContext_op1 : (restoreContext s).op1 = (contextWord (poppedContext s) 4).setWidth 8 := by
  simp [restoreContext, loadContext]
@[simp] theorem restoreContext_op2 : (restoreContext s).op2 = (contextWord (poppedContext s) 5).setWidth 16 := by
  simp [restoreContext, loadContext]
@[simp] theorem restoreContext_execState :
    (restoreContext s).execState = ExecState.ofBits ((contextWord (poppedContext s) 6).setWidth 2) := by
  simp [restoreContext, loadContext]
@[simp] theorem restoreContext_lfa : (restoreContext s).lfa = s.lfa := by
  simp [restoreContext, loadContext]
@[simp] theorem restoreContext_pm : (restoreContext s).pm = s.pm := by
  simp [restoreContext, loadContext]
@[simp] theorem restoreContext_dm : (restoreContext s).dm = s.dm := by
  simp [restoreContext, loadContext]
@[simp] theorem restoreContext_pinIn : (restoreContext s).pinIn = s.pinIn := by
  simp [restoreContext, loadContext]
@[simp] theorem restoreContext_inputs : (restoreContext s).inputs = s.inputs := by
  simp [restoreContext, loadContext]

/-- Context word j comes from the cell 41 - j places above the pointer, 0 where the stack has run out (R271, R275). -/
theorem poppedContext_get {j : Nat} (h : j < 42) :
    contextWord (poppedContext s) j =
      if s.stack.sp.val + (41 - j) < 1024 then Memory.lookup s.stack.cells (s.stack.sp.val + (41 - j)) else 0#32 := by
  rw [← Stack.popMany_get 42 s.stack (41 - j) (by omega)]
  have hl := Stack.popMany_length 42 s.stack
  simp only [contextWord, poppedContext, List.getD_eq_getElem?_getD, Config.ctxWords, Config.numPorts, Config.numRegs]
  rw [List.getElem?_reverse (by rw [hl]; exact h), hl]

/-- The execution state survives its two bits. -/
@[simp] theorem ExecState.ofBits_bits (e : ExecState) : ExecState.ofBits e.bits = e := by
  cases e <;> rfl

end Sys2Proof.Machine
end

