-- ==== Sys2Proof/Laws/Boundary.lean ====
section
/-! SUPPORT. What the boundary step's two first parts do to every cell and to PREV, and when it dispatches
(60_exceptions.md R265 to R269). -/

namespace Sys2Proof.Machine

variable (s : State)

theorem pinAddr_ne_ifr (n : Port) : pinAddr n ≠ 10 := by
  have := pinAddr_lt n
  omega

/-- Source n's bit is bit n and no other (R39). -/
theorem sourceBit_getLsbD (n : Port) (k : Nat) : (sourceBit n).getLsbD k = decide (k = n.val) := by
  have hn := n.isLt
  simp only [sourceBit, BitVec.getLsbD_shiftLeft, BitVec.getLsbD_one]
  by_cases h : k = n.val
  · subst h
    simp
    omega
  · simp [h]
    omega

/-! ### One port -/

theorem memRead_detectEdge_other (n : Port) {a : Nat} (h : a ≠ 10) : memRead (detectEdge n s) a = memRead s a := by
  rw [memRead_detectEdge]
  simp [h]

theorem detectEdge_prev_other {n k : Port} (h : k ≠ n) : (detectEdge n s).prev.get k = s.prev.get k := by
  rw [detectEdge_prev, if_neg h]

/-- The bits of IFR after edge detection of one port (R266). -/
theorem detectEdge_ifr (n : Port) (k : Nat) :
    (memRead (detectEdge n s) 10).getLsbD k =
      ((memRead s 10).getLsbD k || (decide (k = n.val) && changedPins n s != 0#32)) := by
  rw [memRead_detectEdge]
  by_cases h : changedPins n s = 0#32
  · simp [h]
  · have h' : (changedPins n s != 0#32) = true := by simpa using h
    rw [if_pos ⟨rfl, h⟩, BitVec.getLsbD_or, sourceBit_getLsbD, h', Bool.and_true]

/-- Detecting one port's edges does not disturb another's. -/
theorem changedPins_detectEdge {n k : Port} (h : k ≠ n) : changedPins k (detectEdge n s) = changedPins k s := by
  unfold changedPins
  rw [memRead_detectEdge_other s n (pinAddr_ne_ifr k), memRead_detectEdge_other s n (by rw [imskAddr_val]; omega),
    detectEdge_prev_other s h]

/-! ### All ports -/

theorem memRead_detectEdges_other {a : Nat} (h : a ≠ 10) : memRead (detectEdges s) a = memRead s a := by
  simp only [detectEdges, memRead_detectEdge_other _ _ h]

/-- PREV of each port is its new sample (R266). -/
theorem detectEdges_prev (n : Port) : (detectEdges s).prev.get n = memRead s (pinAddr n) := by
  unfold detectEdges
  match n with
  | 0 => rw [detectEdge_prev_other _ (by decide), detectEdge_prev_other _ (by decide), detectEdge_prev, if_pos rfl]
  | 1 =>
    rw [detectEdge_prev_other _ (by decide), detectEdge_prev, if_pos rfl,
      memRead_detectEdge_other _ _ (pinAddr_ne_ifr _)]
  | 2 =>
    rw [detectEdge_prev, if_pos rfl, memRead_detectEdge_other _ _ (pinAddr_ne_ifr _),
      memRead_detectEdge_other _ _ (pinAddr_ne_ifr _)]

/-- The bits of IFR after edge detection of all ports. -/
theorem detectEdges_ifr (k : Nat) :
    (memRead (detectEdges s) 10).getLsbD k =
      ((memRead s 10).getLsbD k || (decide (k = 0) && changedPins 0 s != 0#32) ||
        (decide (k = 1) && changedPins 1 s != 0#32) || (decide (k = 2) && changedPins 2 s != 0#32)) := by
  unfold detectEdges
  rw [detectEdge_ifr, detectEdge_ifr, detectEdge_ifr, changedPins_detectEdge _ (by decide),
    changedPins_detectEdge _ (by decide), changedPins_detectEdge _ (by decide)]
  rfl

theorem memRead_samplePins_pin (n : Port) : memRead (samplePins s) (pinAddr n) = s.pinIn.get n := by
  rw [memRead_samplePins]
  match n with
  | 0 => rfl
  | 1 => rfl
  | 2 => rfl

theorem memRead_samplePins_other {a : Nat} (h2 : a ≠ 2) (h5 : a ≠ 5) (h8 : a ≠ 8) :
    memRead (samplePins s) a = memRead s a := by
  rw [memRead_samplePins]
  simp [h2, h5, h8]

/-- After the pin sample the machine's changed masked pins are the spec's (R266). -/
theorem changedPins_samplePins (n : Port) : (changedPins n (samplePins s) != 0#32) = pinChanged s n := by
  unfold changedPins pinChanged
  rw [memRead_samplePins_pin, samplePins_prev,
    memRead_samplePins_other s (by rw [imskAddr_val]; omega) (by rw [imskAddr_val]; omega) (by rw [imskAddr_val]; omega)]
  rfl

/-- The bits of IFR behind pin sample and edge detection. -/
theorem sampled_ifr (k : Nat) :
    (memRead (detectEdges (samplePins s)) 10).getLsbD k =
      ((memRead s 10).getLsbD k || (decide (k = 0) && pinChanged s 0) || (decide (k = 1) && pinChanged s 1) ||
        (decide (k = 2) && pinChanged s 2)) := by
  rw [detectEdges_ifr, changedPins_samplePins, changedPins_samplePins, changedPins_samplePins,
    memRead_samplePins_other s (by omega) (by omega) (by omega)]

/-- Source n's bit of IFR behind pin sample and edge detection. -/
theorem sampled_pending (n : Port) :
    (memRead (detectEdges (samplePins s)) 10).getLsbD n.val = pendingAfter s n := by
  rw [sampled_ifr, pendingAfter]
  match n with
  | 0 => simp
  | 1 => simp
  | 2 => simp

/-- The sources eligible at the dispatch decision are those the spec's condition names (R268). -/
theorem eligible_sampled (n : Port) : eligible (detectEdges (samplePins s)) n = mayDispatch s n := by
  have hI : (detectEdges (samplePins s)).flagI = s.flagI := (flags_congr (by simp)).1
  have h9 : memRead (detectEdges (samplePins s)) 9 = memRead s 9 := by
    rw [memRead_detectEdges_other _ (by omega), memRead_samplePins_other s (by omega) (by omega) (by omega)]
  unfold eligible mayDispatch
  simp only [icrAddr_val, ifrAddr_val, sampled_pending, hI, h9]

/-- Without an eligible source the boundary step is sample and detection (R264, R268). -/
theorem boundary_of_none (h : ∀ n : Port, mayDispatch s n = false) : boundary s = detectEdges (samplePins s) := by
  have : selectSource (detectEdges (samplePins s)) = none := by
    unfold selectSource
    simp [eligible_sampled, h]
  rw [boundary, this]

/-- The bits of IFR from 3 up are plain storage: no boundary step changes them (R39). -/
theorem boundary_ifr_high {k : Nat} (hk : 3 ≤ k) :
    (memRead (boundary s) 10).getLsbD k = (memRead s 10).getLsbD k := by
  have hs : (memRead (detectEdges (samplePins s)) 10).getLsbD k = (memRead s 10).getLsbD k := by
    have h0 : k ≠ 0 := by omega
    have h1 : k ≠ 1 := by omega
    have h2 : k ≠ 2 := by omega
    rw [sampled_ifr]
    simp [h0, h1, h2]
  rcases boundary_cases s with ⟨_, h⟩ | ⟨n, _, h⟩ <;> rw [h]
  · exact hs
  · have hn : k ≠ n.val := by omega
    rw [memRead_dispatchInterrupt, if_pos rfl, BitVec.getLsbD_and, BitVec.getLsbD_not, sourceBit_getLsbD, hs]
    by_cases hlt : k < 32
    · simp [hlt, hn]
    · simp [BitVec.getLsbD_of_ge (memRead s 10) k (by omega)]

/-- Context word j as RETI gets it: the word 41 - j places above the pointer (R271, R275). -/
theorem contextWord_popped {j : Nat} (h : j < 42) :
    contextWord (poppedContext s) j = wordAbove (41 - j) s.stack :=
  poppedContext_get s h

end Sys2Proof.Machine
end

