-- ==== Sys2Proof/Laws/Cycle.lean ====
section
/-! SUPPORT. What one tick, one clock edge and one step can do, said once (41_control_cycle.md R150 to R162). -/

namespace Sys2Proof.Machine

variable (s : State)

/-! ### The host's side of an edge, FETCH and DECODE: what they leave -/

theorem presentInputs_eq : presentInputs s = s.setHost (presentInputs s).pinIn (presentInputs s).inputs := by
  unfold presentInputs
  split <;> rfl

@[simp] theorem presentInputs_regs : (presentInputs s).regs = s.regs := by
  unfold presentInputs
  split <;> rfl
@[simp] theorem presentInputs_pc : (presentInputs s).pc = s.pc := by
  unfold presentInputs
  split <;> rfl
@[simp] theorem presentInputs_sr : (presentInputs s).sr = s.sr := by
  unfold presentInputs
  split <;> rfl
@[simp] theorem presentInputs_ir : (presentInputs s).ir = s.ir := by
  unfold presentInputs
  split <;> rfl
@[simp] theorem presentInputs_opc : (presentInputs s).opc = s.opc := by
  unfold presentInputs
  split <;> rfl
@[simp] theorem presentInputs_op1 : (presentInputs s).op1 = s.op1 := by
  unfold presentInputs
  split <;> rfl
@[simp] theorem presentInputs_op2 : (presentInputs s).op2 = s.op2 := by
  unfold presentInputs
  split <;> rfl
@[simp] theorem presentInputs_execState : (presentInputs s).execState = s.execState := by
  unfold presentInputs
  split <;> rfl
@[simp] theorem presentInputs_prev : (presentInputs s).prev = s.prev := by
  unfold presentInputs
  split <;> rfl
@[simp] theorem presentInputs_lfa : (presentInputs s).lfa = s.lfa := by
  unfold presentInputs
  split <;> rfl
@[simp] theorem presentInputs_pm : (presentInputs s).pm = s.pm := by
  unfold presentInputs
  split <;> rfl
@[simp] theorem presentInputs_dm : (presentInputs s).dm = s.dm := by
  unfold presentInputs
  split <;> rfl
@[simp] theorem presentInputs_stack : (presentInputs s).stack = s.stack := by
  unfold presentInputs
  split <;> rfl

/-- The machine's own state: all that the host's inputs, FETCH and DECODE leave as it is (R158). -/
def sameMachine (s t : State) : Prop :=
  t.regs = s.regs ∧ t.sr = s.sr ∧ t.prev = s.prev ∧ t.pm = s.pm ∧ t.dm = s.dm ∧ t.stack = s.stack

theorem sameMachine.trans {s t u : State} (h : sameMachine s t) (h' : sameMachine t u) : sameMachine s u := by
  obtain ⟨a, b, c, d, e, f⟩ := h
  obtain ⟨a', b', c', d', e', f'⟩ := h'
  exact ⟨a'.trans a, b'.trans b, c'.trans c, d'.trans d, e'.trans e, f'.trans f⟩

theorem sameMachine_presentInputs : sameMachine s (presentInputs s) := by
  simp [sameMachine]

theorem sameMachine_fetchTick : sameMachine s (fetchTick s) := ⟨rfl, rfl, rfl, rfl, rfl, rfl⟩

theorem sameMachine_decodeTick : sameMachine s (decodeTick s) := ⟨rfl, rfl, rfl, rfl, rfl, rfl⟩

@[simp] theorem fetchTick_execState : (fetchTick s).execState = .decode := rfl
@[simp] theorem decodeTick_execState : (decodeTick s).execState = .execute := rfl

/-! ### One edge -/

/-- An edge with rst asserted is a reset, whatever STATE is (R162). -/
theorem clockEdge_rst (h : rstAsserted s = true) : clockEdge s = .next (resetMachine (presentInputs s)) := by
  simp [clockEdge, h]

theorem clockEdge_fetch (h : rstAsserted s = false) (hs : s.execState = .fetch) :
    clockEdge s = .next (fetchTick (presentInputs s)) := by
  simp [clockEdge, h, tick, hs]

theorem clockEdge_decode (h : rstAsserted s = false) (hs : s.execState = .decode) :
    clockEdge s = .next (decodeTick (presentInputs s)) := by
  simp [clockEdge, h, tick, hs]

theorem clockEdge_execute (h : rstAsserted s = false) (hs : s.execState = .execute) :
    clockEdge s = executeTick (presentInputs s) := by
  simp [clockEdge, h, tick, hs]

/-! ### Runs of edges -/

theorem runEdges_rst (k : Nat) (h : rstAsserted s = true) :
    runEdges (k + 1) s = .next (resetMachine (presentInputs s)) := by
  simp [runEdges, clockEdge_rst s h, endsInstr, h]

theorem runEdges_fetch (k : Nat) (h : rstAsserted s = false) (hs : s.execState = .fetch) :
    runEdges (k + 1) s = runEdges k (fetchTick (presentInputs s)) := by
  simp [runEdges, clockEdge_fetch s h hs, endsInstr, h, hs]

theorem runEdges_decode (k : Nat) (h : rstAsserted s = false) (hs : s.execState = .decode) :
    runEdges (k + 1) s = runEdges k (decodeTick (presentInputs s)) := by
  simp [runEdges, clockEdge_decode s h hs, endsInstr, h, hs]

theorem runEdges_execute (k : Nat) (h : rstAsserted s = false) (hs : s.execState = .execute) :
    runEdges (k + 1) s = executeTick (presentInputs s) := by
  simp only [runEdges, clockEdge_execute s h hs, endsInstr, h, hs]
  cases executeTick (presentInputs s) <;> simp

/-- What a step from `s` can have done to reach `t`: a reset (rst, or a decode error in the EXECUTE tick), or one
instruction's Operation with the boundary step behind it. `u` is the machine when that happened: its program memory
and, before an Operation, its registers, flags, data memory and stack are those of `s` (R154, R157, R160). -/
def stepOutcome (s t : State) : Prop :=
  (∃ u, u.pm = s.pm ∧ t = resetMachine u) ∨
    ∃ i u v, sameMachine s u ∧ u.execState = .execute ∧ decodeFields u.opc u.op1 u.op2 = .ok i ∧
      exec i u = .next v ∧ t = boundary (v.setExecState .fetch)

variable {s}

theorem executeTick_cases {u t : State} (hu : sameMachine s u) (he : u.execState = .execute)
    (hx : executeTick u = .next t) : stepOutcome s t := by
  unfold executeTick at hx
  split at hx
  · rename_i i hd
    cases hv : exec i u with
    | next v =>
      rw [hv] at hx
      exact .inr ⟨i, u, v, hu, he, hd, hv, (Host.Outcome.next.inj hx).symm⟩
    | fault f => rw [hv] at hx; cases hx
    | refused r => rw [hv] at hx; cases hx
  · exact .inl ⟨u, hu.2.2.2.1, (Host.Outcome.next.inj hx).symm⟩

theorem runEdges_rst_cases {u t : State} (k : Nat) (hu : sameMachine s u) (hr : rstAsserted u = true)
    (hx : runEdges (k + 1) u = .next t) : stepOutcome s t := by
  rw [runEdges_rst u k hr] at hx
  exact .inl ⟨presentInputs u, (hu.trans (sameMachine_presentInputs u)).2.2.2.1, (Host.Outcome.next.inj hx).symm⟩

theorem runEdges_execute_cases {u t : State} (k : Nat) (hu : sameMachine s u) (he : u.execState = .execute)
    (hx : runEdges (k + 1) u = .next t) : stepOutcome s t := by
  cases hr : rstAsserted u with
  | true => exact runEdges_rst_cases k hu hr hx
  | false =>
    rw [runEdges_execute u k hr he] at hx
    exact executeTick_cases (hu.trans (sameMachine_presentInputs u)) (by simpa using he) hx

theorem runEdges_decode_cases {u t : State} (k : Nat) (hu : sameMachine s u) (he : u.execState = .decode)
    (hx : runEdges (k + 2) u = .next t) : stepOutcome s t := by
  cases hr : rstAsserted u with
  | true => exact runEdges_rst_cases (k + 1) hu hr hx
  | false =>
    rw [runEdges_decode u (k + 1) hr he] at hx
    exact runEdges_execute_cases k ((hu.trans (sameMachine_presentInputs u)).trans (sameMachine_decodeTick _)) rfl hx

/-- What a step can do. -/
theorem step_cases {t : State} (h : step s = .next t) : stepOutcome s t := by
  have self : sameMachine s s := ⟨rfl, rfl, rfl, rfl, rfl, rfl⟩
  change runEdges 3 s = .next t at h
  cases he : s.execState with
  | execute => exact runEdges_execute_cases 2 self he h
  | decode => exact runEdges_decode_cases 1 self he h
  | fetch =>
    cases hr : rstAsserted s with
    | true => exact runEdges_rst_cases 2 self hr h
    | false =>
      rw [runEdges_fetch s 2 hr he] at h
      exact runEdges_decode_cases 0 ((sameMachine_presentInputs s).trans (sameMachine_fetchTick _)) rfl h

end Sys2Proof.Machine
end

