-- ==== Sys2Proof/Laws/PerInstr.lean ====
section
/-! SUPPORT. The per-instruction family: the canonical word of an instruction is well-formed (30_encoding.md R112). -/

namespace Sys2Proof.Laws

/-- The field reads of a packed word give the fields back (R101). -/
theorem packFields_fields (c a : BitVec 8) (b : BitVec 16) :
    (packFields c a b).extractLsb' 24 8 = c ∧ (packFields c a b).extractLsb' 16 8 = a ∧
      (packFields c a b).extractLsb' 0 16 = b := by
  refine ⟨?_, ?_, ?_⟩
  all_goals
    apply BitVec.eq_of_toNat_eq
    have := c.isLt
    have := a.isLt
    have := b.isLt
    simp only [packFields, BitVec.extractLsb'_toNat, BitVec.toNat_append, Nat.shiftLeft_eq, Nat.shiftRight_eq_div_pow,
      ← Nat.two_pow_add_eq_or_of_lt, *, Nat.mul_comm _ (2 ^ 8), Nat.mul_comm _ (2 ^ 16), Nat.shiftLeft_eq]
    omega

/-- A register number fits its field. -/
theorem regField_toNat {n : Nat} (h : 5 ≤ n) (r : Reg) : (regField n r).toNat = r.val := by
  have h32 : 2 ^ 5 ≤ 2 ^ n := Nat.pow_le_pow_right (by omega) h
  simp only [regField, BitVec.toNat_ofNat]
  exact Nat.mod_eq_of_lt (by omega)

/-- A register number written into a field is the register the field selects (R103). -/
theorem reg_regField {n : Nat} (h : 5 ≤ n) (r : Reg) : reg (regField n r) = r := by
  apply Fin.ext
  have := regField_toNat h r
  simp [reg, this]

/-! ### One lemma per operand form -/

set_option linter.unusedSimpArgs false in
/-- Well-formedness of a packed word, read off its fields. -/
theorem wordWellFormed_pack (c a : BitVec 8) (b : BitVec 16) :
    wordWellFormed (packFields c a b) =
      (decide (c.toNat ≤ 0x25) &&
        (match formOf c with
          | some .N => a == 0 && b == 0
          | some .R | some .T => b == 0
          | _ => true) &&
        (match formOf c with
          | some .R | some .RI | some .RA => decide (a.toNat < 32)
          | some .RR => decide (a.toNat < 32) && decide (b.toNat < 32)
          | some .AR => decide (b.toNat < 32)
          | _ => true)) := by
  obtain ⟨h1, h2, h3⟩ := packFields_fields c a b
  rcases hf : formOf c with _ | f
  · simp only [wordWellFormed, opcodeRecognised, ignoredFieldsZero, registerFieldsInRange, h1, h2, h3, hf]
  · cases f <;>
      simp only [wordWellFormed, opcodeRecognised, ignoredFieldsZero, registerFieldsInRange, h1, h2, h3, hf, Config.numRegs]

theorem wf_N {c : BitVec 8} (h : formOf c = some .N) (hc : c.toNat ≤ 0x25) : wordWellFormed (encodeN c) = true := by
  simp [encodeN, wordWellFormed_pack, h, hc]

theorem wf_R {c : BitVec 8} (h : formOf c = some .R) (hc : c.toNat ≤ 0x25) (r : Reg) :
    wordWellFormed (encodeR c r) = true := by
  simp only [encodeR, wordWellFormed_pack, h, hc, regField_toNat (show 5 ≤ 8 by omega), r.isLt]
  decide

theorem wf_RI {c : BitVec 8} (h : formOf c = some .RI) (hc : c.toNat ≤ 0x25) (r : Reg) (k : BitVec 16) :
    wordWellFormed (encodeRI c r k) = true := by
  simp only [encodeRI, wordWellFormed_pack, h, hc, regField_toNat (show 5 ≤ 8 by omega), r.isLt]
  decide

theorem wf_RR {c : BitVec 8} (h : formOf c = some .RR) (hc : c.toNat ≤ 0x25) (d r : Reg) :
    wordWellFormed (encodeRR c d r) = true := by
  simp only [encodeRR, wordWellFormed_pack, h, hc, regField_toNat (show 5 ≤ 8 by omega),
    regField_toNat (show 5 ≤ 16 by omega), d.isLt, r.isLt]
  decide

theorem wf_AR {c : BitVec 8} (h : formOf c = some .AR) (hc : c.toNat ≤ 0x25) (a : BitVec 8) (r : Reg) :
    wordWellFormed (encodeAR c a r) = true := by
  simp only [encodeAR, wordWellFormed_pack, h, hc, regField_toNat (show 5 ≤ 16 by omega), r.isLt]
  decide

theorem wf_RA {c : BitVec 8} (h : formOf c = some .RA) (hc : c.toNat ≤ 0x25) (d : Reg) (a : BitVec 16) :
    wordWellFormed (encodeRA c d a) = true := by
  simp only [encodeRA, wordWellFormed_pack, h, hc, regField_toNat (show 5 ≤ 8 by omega), d.isLt]
  decide

theorem wf_T {c : BitVec 8} (h : formOf c = some .T) (hc : c.toNat ≤ 0x25) (t : BitVec 8) :
    wordWellFormed (encodeT c t) = true := by
  simp [encodeT, wordWellFormed_pack, h, hc]

/-! ### The family -/

/-- The canonical word of the instruction passes the three checks of R112. -/
def EncodeWellFormed.Statement (i : Instr) : Prop := wordWellFormed (encode i) = true

theorem EncodeWellFormed.nop : EncodeWellFormed.Statement (.nop) :=
  wf_N (by decide) (by decide)
theorem EncodeWellFormed.ldi (rd : Reg) (imm : BitVec 16) : EncodeWellFormed.Statement (.ldi rd imm) :=
  wf_RI (by decide) (by decide) rd imm
theorem EncodeWellFormed.mov (rd : Reg) (rs : Reg) : EncodeWellFormed.Statement (.mov rd rs) :=
  wf_RR (by decide) (by decide) rd rs
theorem EncodeWellFormed.out (addr : BitVec 8) (rs : Reg) : EncodeWellFormed.Statement (.out addr rs) :=
  wf_AR (by decide) (by decide) addr rs
theorem EncodeWellFormed.in_ (rd : Reg) (addr : BitVec 16) : EncodeWellFormed.Statement (.in_ rd addr) :=
  wf_RA (by decide) (by decide) rd addr
theorem EncodeWellFormed.sts (addr : BitVec 8) (rs : Reg) : EncodeWellFormed.Statement (.sts addr rs) :=
  wf_AR (by decide) (by decide) addr rs
theorem EncodeWellFormed.lds (rd : Reg) (addr : BitVec 16) : EncodeWellFormed.Statement (.lds rd addr) :=
  wf_RA (by decide) (by decide) rd addr
theorem EncodeWellFormed.clr (rd : Reg) : EncodeWellFormed.Statement (.clr rd) :=
  wf_R (by decide) (by decide) rd
theorem EncodeWellFormed.ori (rd : Reg) (imm : BitVec 16) : EncodeWellFormed.Statement (.ori rd imm) :=
  wf_RI (by decide) (by decide) rd imm
theorem EncodeWellFormed.andi (rd : Reg) (imm : BitVec 16) : EncodeWellFormed.Statement (.andi rd imm) :=
  wf_RI (by decide) (by decide) rd imm
theorem EncodeWellFormed.xori (rd : Reg) (imm : BitVec 16) : EncodeWellFormed.Statement (.xori rd imm) :=
  wf_RI (by decide) (by decide) rd imm
theorem EncodeWellFormed.orr (rd : Reg) (rs : Reg) : EncodeWellFormed.Statement (.orr rd rs) :=
  wf_RR (by decide) (by decide) rd rs
theorem EncodeWellFormed.andr (rd : Reg) (rs : Reg) : EncodeWellFormed.Statement (.andr rd rs) :=
  wf_RR (by decide) (by decide) rd rs
theorem EncodeWellFormed.xorr (rd : Reg) (rs : Reg) : EncodeWellFormed.Statement (.xorr rd rs) :=
  wf_RR (by decide) (by decide) rd rs
theorem EncodeWellFormed.addi (rd : Reg) (imm : BitVec 16) : EncodeWellFormed.Statement (.addi rd imm) :=
  wf_RI (by decide) (by decide) rd imm
theorem EncodeWellFormed.subi (rd : Reg) (imm : BitVec 16) : EncodeWellFormed.Statement (.subi rd imm) :=
  wf_RI (by decide) (by decide) rd imm
theorem EncodeWellFormed.add (rd : Reg) (rs : Reg) : EncodeWellFormed.Statement (.add rd rs) :=
  wf_RR (by decide) (by decide) rd rs
theorem EncodeWellFormed.sub (rd : Reg) (rs : Reg) : EncodeWellFormed.Statement (.sub rd rs) :=
  wf_RR (by decide) (by decide) rd rs
theorem EncodeWellFormed.inc (rd : Reg) : EncodeWellFormed.Statement (.inc rd) :=
  wf_R (by decide) (by decide) rd
theorem EncodeWellFormed.dec (rd : Reg) : EncodeWellFormed.Statement (.dec rd) :=
  wf_R (by decide) (by decide) rd
theorem EncodeWellFormed.cpi (rd : Reg) (imm : BitVec 16) : EncodeWellFormed.Statement (.cpi rd imm) :=
  wf_RI (by decide) (by decide) rd imm
theorem EncodeWellFormed.cp (rd : Reg) (rs : Reg) : EncodeWellFormed.Statement (.cp rd rs) :=
  wf_RR (by decide) (by decide) rd rs
theorem EncodeWellFormed.jmp (t : BitVec 8) : EncodeWellFormed.Statement (.jmp t) :=
  wf_T (by decide) (by decide) t
theorem EncodeWellFormed.breq (t : BitVec 8) : EncodeWellFormed.Statement (.breq t) :=
  wf_T (by decide) (by decide) t
theorem EncodeWellFormed.brne (t : BitVec 8) : EncodeWellFormed.Statement (.brne t) :=
  wf_T (by decide) (by decide) t
theorem EncodeWellFormed.brge (t : BitVec 8) : EncodeWellFormed.Statement (.brge t) :=
  wf_T (by decide) (by decide) t
theorem EncodeWellFormed.brgt (t : BitVec 8) : EncodeWellFormed.Statement (.brgt t) :=
  wf_T (by decide) (by decide) t
theorem EncodeWellFormed.brle (t : BitVec 8) : EncodeWellFormed.Statement (.brle t) :=
  wf_T (by decide) (by decide) t
theorem EncodeWellFormed.brlt (t : BitVec 8) : EncodeWellFormed.Statement (.brlt t) :=
  wf_T (by decide) (by decide) t
theorem EncodeWellFormed.call (t : BitVec 8) : EncodeWellFormed.Statement (.call t) :=
  wf_T (by decide) (by decide) t
theorem EncodeWellFormed.ret : EncodeWellFormed.Statement (.ret) :=
  wf_N (by decide) (by decide)
theorem EncodeWellFormed.reti : EncodeWellFormed.Statement (.reti) :=
  wf_N (by decide) (by decide)
theorem EncodeWellFormed.push (rs : Reg) : EncodeWellFormed.Statement (.push rs) :=
  wf_R (by decide) (by decide) rs
theorem EncodeWellFormed.pop (rd : Reg) : EncodeWellFormed.Statement (.pop rd) :=
  wf_R (by decide) (by decide) rd
theorem EncodeWellFormed.lsl (rd : Reg) : EncodeWellFormed.Statement (.lsl rd) :=
  wf_R (by decide) (by decide) rd
theorem EncodeWellFormed.lsr (rd : Reg) : EncodeWellFormed.Statement (.lsr rd) :=
  wf_R (by decide) (by decide) rd
theorem EncodeWellFormed.sei : EncodeWellFormed.Statement (.sei) :=
  wf_N (by decide) (by decide)
theorem EncodeWellFormed.cli : EncodeWellFormed.Statement (.cli) :=
  wf_N (by decide) (by decide)

end Sys2Proof.Laws
end

