-- ==== Sys2Proof/Laws/Decode.lean ====
section
/-! SUPPORT. Words, their fields and the decoder: the spec's formulas for a word and a register field are the machine's
bit ranges (30_encoding.md R101, R103). -/

namespace Sys2Proof

/-- Decoding a packed word decodes its three fields. -/
theorem decode_packFields (c a : BitVec 8) (b : BitVec 16) : decode (packFields c a b) = decodeFields c a b := by
  obtain ⟨h1, h2, h3⟩ := Laws.packFields_fields c a b
  simp only [decode, opcField, op1Field, op2Field, h1, h2, h3]

/-- Every word is its own three fields, packed. -/
theorem packFields_self (w : InstrWord) : packFields (opcField w) (op1Field w) (op2Field w) = w := by
  apply BitVec.eq_of_toNat_eq
  have := w.isLt
  simp only [packFields, BitVec.toNat_append, opcField, op1Field, op2Field, BitVec.extractLsb'_toNat,
    Nat.shiftLeft_eq, Nat.shiftRight_eq_div_pow, ← Nat.two_pow_add_eq_or_of_lt, Nat.mod_lt, Nat.two_pow_pos,
    Nat.mul_comm _ (2 ^ 8), Nat.mul_comm _ (2 ^ 16)]
  omega

/-- The spec's sum for a word is the machine's concatenation of the fields (R101). -/
theorem wordOf_eq (c a : BitVec 8) (b : BitVec 16) : Machine.wordOf c.toNat a b = packFields c a b := by
  apply BitVec.eq_of_toNat_eq
  have := c.isLt
  have := a.isLt
  have := b.isLt
  simp only [Machine.wordOf, packFields, BitVec.toNat_append, BitVec.toNat_ofNat, Nat.shiftLeft_eq,
    ← Nat.two_pow_add_eq_or_of_lt, *, Nat.mul_comm _ (2 ^ 8), Nat.mul_comm _ (2 ^ 16)]
  omega

/-- The low five bits of a field are its value modulo 32 (R103). -/
theorem reg_eq_regOf {n : Nat} (f : BitVec n) : reg f = Machine.regOf f := by
  apply Fin.ext
  simp [reg, Machine.regOf]

/-- To say what an opcode's words decode to, it is enough to say what its fields decode to. -/
theorem decodesTo_of {opcode : Nat} {f : BitVec 8 → BitVec 16 → Instr}
    (h : ∀ a b, decodeFields (BitVec.ofNat 8 opcode) a b = .ok (f a b)) (hlt : opcode < 256) :
    Machine.decodesTo opcode f := by
  intro a b
  have := wordOf_eq (BitVec.ofNat 8 opcode) a b
  rw [BitVec.toNat_ofNat, Nat.mod_eq_of_lt (by simpa using hlt)] at this
  rw [this, decode_packFields, h]

namespace Machine

/-- The immediate operand is the field's value (R104). -/
theorem immOperand_eq (k : BitVec 16) : immOperand k = BitVec.ofNat 32 k.toNat := by
  apply BitVec.eq_of_toNat_eq
  simp [immOperand]

/-- The target operand is the field's value (R105). -/
theorem targetOperand_eq (k : BitVec 8) : targetOperand k = BitVec.ofNat 32 k.toNat := by
  apply BitVec.eq_of_toNat_eq
  simp [targetOperand]

end Machine

end Sys2Proof
end

