-- ==== Sys2Proof/Laws/Meanings.lean ====
section
/-! SUPPORT. The operations that several meanings share: what each writes and what it leaves (42_data_transfer.md R173,
43_logic_arith.md R190, 44_control_transfer.md R220). -/

namespace Sys2Proof.Machine

variable (s : State)

/-! ### ALU with write-back and the compare -/

theorem aluWriteBack_reg_same (op : AluOp) (rd : Reg) (b : Word) :
    (aluWriteBack op rd b s).reg rd = (alu op (s.reg rd) b).1 := by
  rw [aluWriteBack, setFlagsSNZVC_reg, State.reg_setReg_same]

theorem aluWriteBack_reg_other (op : AluOp) {rd r : Reg} (b : Word) (h : r ≠ rd) :
    (aluWriteBack op rd b s).reg r = s.reg r := by
  rw [aluWriteBack, setFlagsSNZVC_reg, State.reg_setReg_other s _ h]

theorem aluWriteBack_flags (op : AluOp) (rd : Reg) (b : Word) :
    (aluWriteBack op rd b s).aluFlags = (alu op (s.reg rd) b).2 ∧ (aluWriteBack op rd b s).flagI = s.flagI :=
  ⟨setFlagsSNZVC_aluFlags _ _, (setFlagsSNZVC_flagI _ _).trans rfl⟩

theorem aluCompare_flags (rd : Reg) (b : Word) :
    (aluCompare rd b s).aluFlags = (aluSub (s.reg rd) b).2 ∧ (aluCompare rd b s).flagI = s.flagI :=
  ⟨setFlagsSNZVC_aluFlags _ _, setFlagsSNZVC_flagI _ _⟩

/-! ### OUT's write -/

/-- What OUT does to every cell (R173). -/
theorem memRead_outWrite (a b : Nat) (v : Word) :
    memRead (outWrite a v s) b =
      if a = 2 then (if b = 1 then memRead s 1 ^^^ v else memRead s b)
      else if b = a ∧ a < 512 then v else memRead s b := by
  unfold outWrite
  rw [toggleAddr_val]
  by_cases h : a = 2
  · subst h
    rw [if_pos rfl, if_pos rfl, memRead_memWrite]
    by_cases hb : b = 1 <;> simp [hb, portAddr]
  · rw [if_neg h, if_neg h, memRead_memWrite]

@[simp] theorem outWrite_regs (a : Nat) (v : Word) : (outWrite a v s).regs = s.regs := by
  unfold outWrite; split <;> simp
@[simp] theorem outWrite_sr (a : Nat) (v : Word) : (outWrite a v s).sr = s.sr := by
  unfold outWrite; split <;> simp
@[simp] theorem outWrite_pc (a : Nat) (v : Word) : (outWrite a v s).pc = s.pc := by
  unfold outWrite; split <;> simp
@[simp] theorem outWrite_stack (a : Nat) (v : Word) : (outWrite a v s).stack = s.stack := by
  unfold outWrite; split <;> simp
@[simp] theorem outWrite_pm (a : Nat) (v : Word) : (outWrite a v s).pm = s.pm := by
  unfold outWrite; split <;> simp

/-! ### Branches -/

/-- A branch moves pc to its target or leaves the state alone (R220). -/
theorem branchIf_cases (c : Bool) (x : BitVec 8) :
    (c = true ∧ branchIf c x s = s.setPc (targetOperand x)) ∨ (c = false ∧ branchIf c x s = s) := by
  cases c
  · exact .inr ⟨rfl, rfl⟩
  · exact .inl ⟨rfl, rfl⟩

theorem branchIf_pc (c : Bool) (x : BitVec 8) :
    (branchIf c x s).pc = if c = true then targetOperand x else s.pc := by
  cases c <;> rfl

end Sys2Proof.Machine
end

