-- ==== Sys2Proof/Tests/Slice0.lean ====
section
/-! SUPPORT. Tests. Expected results come from the spec: worked encodings and vectors of 95_test_vectors.md (named in each
comment), the constraints of R7, the checks of R112. The witnesses at the end meet the hypotheses of the statements. -/

open Sys2Proof Sys2Proof.Machine

namespace Sys2Proof.Tests

-- One theorem at a time: the kernel evaluations below would otherwise each hold a thread.
set_option Elab.async false

/-! ## Parameters (R7) -/

theorem test_config_constraints :
    Config.instrBits = Config.opcBits + Config.op1Bits + Config.op2Bits ∧ Config.instrBits ≤ Config.wordBits ∧
    Config.pcBits ≤ Config.wordBits ∧ 6 ≤ Config.wordBits ∧ Config.numPorts ≤ Config.wordBits ∧
    4 * Config.numPorts + 2 ≤ Config.ioSize ∧ Config.ioSize ≤ Config.dataBase ∧ Config.dataBase ≤ Config.dmSize ∧
    Config.numRegs = 2 ^ Config.regBits ∧ Config.regBits ≤ Config.op1Bits ∧ Config.regBits ≤ Config.op2Bits ∧
    1 ≤ Config.stackDepth ∧ Config.ctxWords = 42 := by decide

/-! ## Well-formedness (R112): an ill-formed word for each check, and a well-formed one -/

theorem test_wf_unrecognised_opcode : opcodeRecognised 0x26000000#32 = false ∧ wordWellFormed 0x26000000#32 = false := by
  decide
theorem test_wf_ignored_fields : ignoredFieldsZero 0x00FFFFFF#32 = false ∧ wordWellFormed 0x00FFFFFF#32 = false := by
  decide
theorem test_wf_ignored_op2 : ignoredFieldsZero 0x12110001#32 = false ∧ wordWellFormed 0x17100001#32 = false := by
  decide
theorem test_wf_register_field : registerFieldsInRange 0x0130FFFF#32 = false ∧ wordWellFormed 0x0130FFFF#32 = false := by
  decide
theorem test_wf_second_register_field : registerFieldsInRange 0x02010020#32 = false ∧ wordWellFormed 0x03040020#32 = false := by
  decide
theorem test_wf_program : programWellFormed [0x01100005#32, 0x0E100003#32, 0x14100008#32, 0x17100000#32] = true ∧
    programWellFormed [0x01100005#32, 0x26000000#32] = false := by
  decide

/-! ## Decoding: one word per instruction, written out from R101 and R106; most are words of 95_test_vectors.md -/

theorem test_decode_nop : decode 0x00000000#32 = .ok .nop ∧ encode .nop = 0x00000000#32 := by decide
theorem test_decode_ldi : decode 0x01100005#32 = .ok (.ldi 16 5) ∧ encode (.ldi 16 5) = 0x01100005#32 := by decide
theorem test_decode_mov : decode 0x02120010#32 = .ok (.mov 18 16) ∧ encode (.mov 18 16) = 0x02120010#32 := by decide
theorem test_decode_out : decode 0x030B0010#32 = .ok (.out 0x0B 16) ∧ encode (.out 0x0B 16) = 0x030B0010#32 := by decide
theorem test_decode_in : decode 0x040401FF#32 = .ok (.in_ 4 0x1FF) ∧ encode (.in_ 4 0x1FF) = 0x040401FF#32 := by decide
theorem test_decode_sts : decode 0x05FF0010#32 = .ok (.sts 0xFF 16) ∧ encode (.sts 0xFF 16) = 0x05FF0010#32 := by decide
theorem test_decode_lds : decode 0x061200FF#32 = .ok (.lds 18 0xFF) ∧ encode (.lds 18 0xFF) = 0x061200FF#32 := by decide
theorem test_decode_clr : decode 0x07070000#32 = .ok (.clr 7) ∧ encode (.clr 7) = 0x07070000#32 := by decide
theorem test_decode_ori : decode 0x081000F0#32 = .ok (.ori 16 0xF0) ∧ encode (.ori 16 0xF0) = 0x081000F0#32 := by decide
theorem test_decode_andi : decode 0x091000FF#32 = .ok (.andi 16 0xFF) ∧ encode (.andi 16 0xFF) = 0x091000FF#32 := by decide
theorem test_decode_xori : decode 0x0A10FFFF#32 = .ok (.xori 16 0xFFFF) ∧ encode (.xori 16 0xFFFF) = 0x0A10FFFF#32 := by decide
theorem test_decode_or : decode 0x0B010002#32 = .ok (.orr 1 2) ∧ encode (.orr 1 2) = 0x0B010002#32 := by decide
theorem test_decode_and : decode 0x0C010002#32 = .ok (.andr 1 2) ∧ encode (.andr 1 2) = 0x0C010002#32 := by decide
theorem test_decode_xor : decode 0x0D010002#32 = .ok (.xorr 1 2) ∧ encode (.xorr 1 2) = 0x0D010002#32 := by decide
theorem test_decode_addi : decode 0x0E100003#32 = .ok (.addi 16 3) ∧ encode (.addi 16 3) = 0x0E100003#32 := by decide
theorem test_decode_subi : decode 0x0F100001#32 = .ok (.subi 16 1) ∧ encode (.subi 16 1) = 0x0F100001#32 := by decide
theorem test_decode_add : decode 0x10010002#32 = .ok (.add 1 2) ∧ encode (.add 1 2) = 0x10010002#32 := by decide
theorem test_decode_sub : decode 0x11010002#32 = .ok (.sub 1 2) ∧ encode (.sub 1 2) = 0x11010002#32 := by decide
theorem test_decode_inc : decode 0x12110000#32 = .ok (.inc 17) ∧ encode (.inc 17) = 0x12110000#32 := by decide
theorem test_decode_dec : decode 0x13110000#32 = .ok (.dec 17) ∧ encode (.dec 17) = 0x13110000#32 := by decide
theorem test_decode_cpi : decode 0x14100008#32 = .ok (.cpi 16 8) ∧ encode (.cpi 16 8) = 0x14100008#32 := by decide
theorem test_decode_cp : decode 0x15010002#32 = .ok (.cp 1 2) ∧ encode (.cp 1 2) = 0x15010002#32 := by decide
theorem test_decode_jmp : decode 0x16FF0000#32 = .ok (.jmp 0xFF) ∧ encode (.jmp 0xFF) = 0x16FF0000#32 := by decide
theorem test_decode_breq : decode 0x17100000#32 = .ok (.breq 0x10) ∧ encode (.breq 0x10) = 0x17100000#32 := by decide
theorem test_decode_brne : decode 0x18400000#32 = .ok (.brne 0x40) ∧ encode (.brne 0x40) = 0x18400000#32 := by decide
theorem test_decode_brge : decode 0x19400000#32 = .ok (.brge 0x40) ∧ encode (.brge 0x40) = 0x19400000#32 := by decide
theorem test_decode_brgt : decode 0x1A400000#32 = .ok (.brgt 0x40) ∧ encode (.brgt 0x40) = 0x1A400000#32 := by decide
theorem test_decode_brle : decode 0x1B400000#32 = .ok (.brle 0x40) ∧ encode (.brle 0x40) = 0x1B400000#32 := by decide
theorem test_decode_brlt : decode 0x1C400000#32 = .ok (.brlt 0x40) ∧ encode (.brlt 0x40) = 0x1C400000#32 := by decide
theorem test_decode_call : decode 0x1D800000#32 = .ok (.call 0x80) ∧ encode (.call 0x80) = 0x1D800000#32 := by decide
theorem test_decode_ret : decode 0x1E000000#32 = .ok .ret ∧ encode .ret = 0x1E000000#32 := by decide
theorem test_decode_reti : decode 0x1F000000#32 = .ok .reti ∧ encode .reti = 0x1F000000#32 := by decide
theorem test_decode_push : decode 0x20110000#32 = .ok (.push 17) ∧ encode (.push 17) = 0x20110000#32 := by decide
theorem test_decode_pop : decode 0x21110000#32 = .ok (.pop 17) ∧ encode (.pop 17) = 0x21110000#32 := by decide
theorem test_decode_lsl : decode 0x22100000#32 = .ok (.lsl 16) ∧ encode (.lsl 16) = 0x22100000#32 := by decide
theorem test_decode_lsr : decode 0x23100000#32 = .ok (.lsr 16) ∧ encode (.lsr 16) = 0x23100000#32 := by decide
theorem test_decode_sei : decode 0x24000000#32 = .ok .sei ∧ encode .sei = 0x24000000#32 := by decide
theorem test_decode_cli : decode 0x25000000#32 = .ok .cli ∧ encode .cli = 0x25000000#32 := by decide

/-- E14, E15: the lowest unrecognised opcode and the highest. -/
theorem test_decode_unrecognised : decode 0x26000000#32 = .error (.unrecognisedOpcode 0x26) ∧
    decode 0xFFFFFFFF#32 = .error (.unrecognisedOpcode 0xFF) := by decide
/-- E16, E17, E18: ill-formed words with a recognised opcode still name an instruction (R103, R105). -/
theorem test_decode_ill_formed : decode 0x0130FFFF#32 = .ok (.ldi 16 0xFFFF) ∧ decode 0x12F1ABCD#32 = .ok (.inc 17) ∧
    decode 0x00FFFFFF#32 = .ok .nop := by decide
theorem test_decodeTableWord : decodeTableWord 32 0x03020010 = some (.out 2 16) ∧ decodeTableWord 32 0x26000000 = none := by
  decide

/-! ## The ALU: vectors A2, A4, A10, A13, A17 at 32 bits, A21 to A24 at 8 -/

theorem test_alu_add : alu .add 0xFFFFFFFF#32 1#32 = (0#32, ⟨false, false, true, false, true⟩) ∧
    alu .add 0x80000000#32 0x80000000#32 = (0#32, ⟨true, false, true, true, true⟩) := by decide
theorem test_alu_sub : alu .sub 0x7FFFFFFF#32 0xFFFFFFFF#32 = (0x80000000#32, ⟨false, true, false, true, true⟩) ∧
    alu .sub 0#32 0x80000000#32 = (0x80000000#32, ⟨false, true, false, true, true⟩) := by decide
theorem test_alu_xor : alu .bxor 0xFFFFFFFF#32 0x7FFFFFFF#32 = (0x80000000#32, ⟨true, true, false, false, false⟩) := by decide
theorem test_alu_width_8 : alu .sub 0x00#8 0x01#8 = (0xFF#8, ⟨true, true, false, false, true⟩) ∧
    alu .add 0xFF#8 0x01#8 = (0#8, ⟨false, false, true, false, true⟩) ∧
    alu .add 0x7F#8 0x01#8 = (0x80#8, ⟨false, true, false, true, false⟩) ∧
    alu .sub 0x80#8 0x01#8 = (0x7F#8, ⟨true, false, false, true, false⟩) := by decide

/-! ## One step of one instruction -/

/-- The reset state with registers, data cells, SR and pc changed, and the word `w` at pc. -/
def small (w : InstrWord) (regs cells : List (Nat × Word)) (sr : BitVec 6) (pc : Word) : State :=
  let s : State := regs.foldl (fun s r => s.setReg (Fin.ofNat 32 r.1) r.2) State.reset
  let s : State := cells.foldl (fun s c => memWrite c.1 c.2 s) s
  { s with
    pc := pc
    sr := sr
    pm := Memory.store [] pc.toNat w }

/-- The stack pointer and some live cells given. -/
def onStack (sp : Fin 1025) (cells : List (Nat × Word)) (s : State) : State :=
  s.setStack { cells := cells.foldl (fun m c => Memory.store m c.1 c.2) [], sp := sp }

/-- The levels held at the input pins. -/
def atPins (a b c : Word) (s : State) : State := s.setHost #v[a, b, c] []

/-- The answer is a next state, and it passes the check. -/
def answers (r : Result) (f : State → Bool) : Bool :=
  match r with
  | .next t => f t
  | _ => false

/-- An answer that is checked to be `t` is `.next t`. -/
theorem next_of_answers {r : Result} {t : State} (h : answers r (fun u => u == t) = true) : r = .next t := by
  cases r with
  | next u => exact congrArg Host.Outcome.next (eq_of_beq h)
  | fault f => cases h
  | refused f => cases h

/-- No rst in the next `k` inputs, as a check. -/
theorem noRst_of_all {k : Nat} {s : State} (h : (s.inputs.take k).all (fun i => !i.rst) = true) : noRst k s := by
  intro i hi
  simpa using List.all_eq_true.1 h i hi

/-- The general register, SR and pc after a step. -/
def leaves (r : Reg) (v : Word) (sr : BitVec 6) (pc : Word) (t : State) : Bool :=
  t.reg r == v && t.sr == sr && t.pc == pc

/-- T1. -/
theorem test_nop : answers (step (small 0x00000000#32 [(1, 0x7)] [] 0x19 0x10))
    (leaves 1 0x7 0x19 0x11) = true := by decide +kernel
/-- T2. -/
theorem test_ldi_zero_extends : answers (step (small 0x0110ffff#32 [] [] 0x4 0x10))
    (leaves 16 0xffff 0x4 0x11) = true := by decide +kernel
/-- T4. -/
theorem test_mov : answers (step (small 0x02010002#32 [(1, 0x5), (2, 0xdeadbeef)] [] 0x18 0x10))
    (leaves 1 0xdeadbeef 0x18 0x11) = true := by decide +kernel
/-- T7, T8 with pin_in[0] = 0x77. -/
theorem test_out_toggles : answers (step (atPins 0x77 0 0 (small 0x03020010#32 [(16, 0xf)] [(1, 0x3c)] 0x0 0x10)))
    (fun t => memRead t 1 == 0x33 && memRead t 2 == 0x77 && memRead t 10 == 0) = true := by decide +kernel
/-- T9. -/
theorem test_out_pin_sampled_over : answers (step (atPins 0 5 0 (small 0x03050010#32 [(16, 0xf)] [] 0x0 0x10)))
    (fun t => memRead t 4 == 0 && memRead t 5 == 5) = true := by decide +kernel
/-- T12. -/
theorem test_in_last_cell : answers (step (small 0x040401ff#32 [(4, 0x1)] [(511, 0x1234)] 0x0 0x10))
    (leaves 4 0x1234 0x0 0x11) = true := by decide +kernel
/-- T13. -/
theorem test_in_out_of_range : answers (step (small 0x04040200#32 [(4, 0x55)] [] 0x0 0x10))
    (leaves 4 0x0 0x0 0x11) = true := by decide +kernel
/-- T15. -/
theorem test_sts : answers (step (small 0x05000010#32 [(16, 0xcafe)] [] 0x0 0x10))
    (fun t => memRead t 0x100 == 0xCAFE && memRead t 0 == 0) = true := by decide +kernel
/-- T16. -/
theorem test_sts_last_cell : answers (step (small 0x05ff0010#32 [(16, 0xcafe)] [] 0x0 0x10))
    (fun t => memRead t 0x1FF == 0xCAFE) = true := by decide +kernel
/-- T17. -/
theorem test_lds_last_cell : answers (step (small 0x061200ff#32 [] [(511, 0xbeef)] 0x0 0x10))
    (leaves 18 0xbeef 0x0 0x11) = true := by decide +kernel
/-- T18. -/
theorem test_lds_out_of_range : answers (step (small 0x06120100#32 [(18, 0x3)] [] 0x0 0x10))
    (leaves 18 0x0 0x0 0x11) = true := by decide +kernel
/-- T19. -/
theorem test_clr : answers (step (small 0x07070000#32 [(7, 0xffffffff)] [] 0x19 0x10))
    (leaves 7 0x0 0x19 0x11) = true := by decide +kernel
/-- M2. -/
theorem test_ori : answers (step (small 0x08100000#32 [] [] 0x21 0x10))
    (leaves 16 0x0 0x24 0x11) = true := by decide +kernel
/-- M3. -/
theorem test_ori_negative : answers (step (small 0x0810ffff#32 [(16, 0x80000000)] [] 0x0 0x10))
    (leaves 16 0x8000ffff 0x18 0x11) = true := by decide +kernel
/-- M5. -/
theorem test_andi : answers (step (small 0x0910ffff#32 [(16, 0xffff0000)] [] 0x39 0x10))
    (leaves 16 0x0 0x24 0x11) = true := by decide +kernel
/-- M7. -/
theorem test_xori : answers (step (small 0x0a100001#32 [(16, 0x80000000)] [] 0x0 0x10))
    (leaves 16 0x80000001 0x18 0x11) = true := by decide +kernel
/-- M8. -/
theorem test_or : answers (step (small 0x0b010002#32 [(1, 0xf0f0), (2, 0xf0f)] [] 0x0 0x10))
    (leaves 1 0xffff 0x0 0x11) = true := by decide +kernel
/-- M9. -/
theorem test_and : answers (step (small 0x0c010002#32 [(1, 0xf0f0), (2, 0xf0f)] [] 0x0 0x10))
    (leaves 1 0x0 0x4 0x11) = true := by decide +kernel
/-- M10. -/
theorem test_xor_same_register : answers (step (small 0x0d010001#32 [(1, 0x1234)] [] 0x1 0x10))
    (leaves 1 0x0 0x4 0x11) = true := by decide +kernel
/-- M14. -/
theorem test_addi_overflow : answers (step (small 0x0e100001#32 [(16, 0x7fffffff)] [] 0x0 0x10))
    (leaves 16 0x80000000 0xa 0x11) = true := by decide +kernel
/-- M15. -/
theorem test_addi_not_sign_extended : answers (step (small 0x0e10ffff#32 [(16, 0xffff0001)] [] 0x0 0x10))
    (leaves 16 0x0 0x5 0x11) = true := by decide +kernel
/-- M16. -/
theorem test_subi_borrow : answers (step (small 0x0f100001#32 [] [] 0x0 0x10))
    (leaves 16 0xffffffff 0x19 0x11) = true := by decide +kernel
/-- M19. -/
theorem test_add_all_flags : answers (step (small 0x10010002#32 [(1, 0x80000000), (2, 0x80000000)] [] 0x0 0x10))
    (leaves 1 0x0 0x17 0x11) = true := by decide +kernel
/-- M20. -/
theorem test_add_same_register : answers (step (small 0x10010001#32 [(1, 0x40000000)] [] 0x0 0x10))
    (leaves 1 0x80000000 0xa 0x11) = true := by decide +kernel
/-- M23. -/
theorem test_sub : answers (step (small 0x11010002#32 [(1, 0x3), (2, 0x5)] [] 0x0 0x10))
    (leaves 1 0xfffffffe 0x19 0x11) = true := by decide +kernel
/-- M24. -/
theorem test_sub_overflow_borrow : answers (step (small 0x11010002#32 [(1, 0x7fffffff), (2, 0xffffffff)] [] 0x0 0x10))
    (leaves 1 0x80000000 0xb 0x11) = true := by decide +kernel
/-- M27. -/
theorem test_inc_writes_carry : answers (step (small 0x12110000#32 [(17, 0xffffffff)] [] 0x0 0x10))
    (leaves 17 0x0 0x5 0x11) = true := by decide +kernel
/-- M31. -/
theorem test_dec_writes_borrow : answers (step (small 0x13110000#32 [] [] 0x0 0x10))
    (leaves 17 0xffffffff 0x19 0x11) = true := by decide +kernel
/-- M34. -/
theorem test_cpi : answers (step (small 0x14100009#32 [(16, 0x8)] [] 0x0 0x10))
    (leaves 16 0x8 0x19 0x11) = true := by decide +kernel
/-- M36. -/
theorem test_cp_signed : answers (step (small 0x15010002#32 [(1, 0x80000000), (2, 0x1)] [] 0x0 0x10))
    (leaves 1 0x80000000 0x12 0x11) = true := by decide +kernel
/-- H1. -/
theorem test_lsl_no_flag : answers (step (small 0x22100000#32 [(16, 0x7)] [] 0x19 0x10))
    (leaves 16 0xe 0x19 0x11) = true := by decide +kernel
/-- H3. -/
theorem test_lsl_drops_top_bit : answers (step (small 0x22100000#32 [(16, 0xc0000001)] [] 0x0 0x10))
    (leaves 16 0x80000002 0x0 0x11) = true := by decide +kernel
/-- H4. -/
theorem test_lsr_no_flag : answers (step (small 0x23100000#32 [(16, 0x80000001)] [] 0x39 0x10))
    (leaves 16 0x40000000 0x39 0x11) = true := by decide +kernel
/-- J1. -/
theorem test_jmp : answers (step (small 0x16ff0000#32 [] [] 0x0 0x10))
    (leaves 0 0x0 0x0 0xff) = true := by decide +kernel

/-- pc after a branch to 0x40 at 0x10, for S = 0 Z = 0, S = 0 Z = 1, S = 1 Z = 0 and S = 1 Z = 1. -/
def branchPcs (w : InstrWord) (pcs : List Word) : Bool :=
  (([0x00, 0x04, 0x10, 0x14] : List (BitVec 6)).zip pcs).all fun c =>
    answers (step (small w [] [] c.1 0x10)) (leaves 0 0 c.1 c.2)

/-- B1. -/
theorem test_breq : branchPcs 0x17400000#32 [0x11, 0x40, 0x11, 0x40] = true := by decide +kernel
/-- B2. -/
theorem test_brne : branchPcs 0x18400000#32 [0x40, 0x11, 0x40, 0x11] = true := by decide +kernel
/-- B3. -/
theorem test_brge : branchPcs 0x19400000#32 [0x40, 0x40, 0x11, 0x11] = true := by decide +kernel
/-- B4. -/
theorem test_brgt : branchPcs 0x1A400000#32 [0x40, 0x11, 0x11, 0x11] = true := by decide +kernel
/-- B5. -/
theorem test_brle : branchPcs 0x1B400000#32 [0x11, 0x40, 0x40, 0x40] = true := by decide +kernel
/-- B6. -/
theorem test_brlt : branchPcs 0x1C400000#32 [0x11, 0x11, 0x40, 0x40] = true := by decide +kernel

/-- J3. -/
theorem test_call : answers (step (small 0x1d800000#32 [] [] 0x0 0x10))
    (fun t => t.pc == 0x80 && t.stack.sp == 1023 && Memory.lookup t.stack.cells 1023 == 0x11) = true := by decide +kernel
/-- J5. -/
theorem test_call_full_stack : answers (step (onStack 0 [(0, 0x99)] (small 0x1d100000#32 [] [] 0x0 0x2)))
    (fun t => t.pc == 0x10 && t.stack.sp == 0 && Memory.lookup t.stack.cells 0 == 0x99) = true := by decide +kernel
/-- J6. -/
theorem test_ret : answers (step (onStack 1023 [(1023, 0x300)] (small 0x1e000000#32 [] [] 0x0 0x10)))
    (fun t => t.pc == 0x300 && t.stack.sp == 1024) = true := by decide +kernel
/-- J8. -/
theorem test_ret_empty_stack : answers (step (small 0x1e000000#32 [] [] 0x0 0x3))
    (fun t => t.pc == 0 && t.stack.sp == 1024) = true := by decide +kernel
/-- K1. -/
theorem test_push : answers (step (onStack 1023 [] (small 0x20110000#32 [(17, 0x1234)] [] 0x0 0x10)))
    (fun t => t.stack.sp == 1022 && Memory.lookup t.stack.cells 1022 == 0x1234) = true := by decide +kernel
/-- K2. -/
theorem test_push_full_stack : answers (step (onStack 0 [(0, 0x99)] (small 0x20010000#32 [(1, 0xaa)] [] 0x0 0x10)))
    (fun t => t.stack.sp == 0 && Memory.lookup t.stack.cells 0 == 0x99) = true := by decide +kernel
/-- K3. -/
theorem test_pop : answers (step (onStack 1022 [(1022, 0x1234)] (small 0x21110000#32 [] [] 0x0 0x10)))
    (fun t => t.stack.sp == 1023 && t.reg 17 == 0x1234) = true := by decide +kernel
/-- K4. -/
theorem test_pop_empty_stack : answers (step (small 0x21010000#32 [(1, 0x5)] [] 0x0 0x10))
    (fun t => t.stack.sp == 1024 && t.reg 1 == 0) = true := by decide +kernel
/-- K5. -/
theorem test_sei : answers (step (small 0x24000000#32 [] [] 0x4 0x10))
    (leaves 0 0x0 0x24 0x11) = true := by decide +kernel
/-- K6. -/
theorem test_cli : answers (step (small 0x25000000#32 [] [] 0x24 0x10))
    (leaves 0 0x0 0x4 0x11) = true := by decide +kernel
/-- K7, its last instruction. -/
theorem test_reti_empty_stack : answers (step (atPins 9 0 0 (small 0x1f000000#32 [(5, 0x78)] [] 0x0 0x2)))
    (fun t => t.pc == 0 && t.sr == 0x20 && t.reg 5 == 0 && t.ir == 0 && t.opc == 0 && t.stack.sp == 1024 && t.prev.get 0 == 9) = true := by decide +kernel

/-- The 42 context words of program P4 at instruction 9, at the stack cells the spec lists (word 0 in cell 1023). -/
def p4Context : List (Nat × Word) :=
  [(1023, 0x0E), (1022, 0x12110000), (1021, 0x20), (1020, 0x12), (1019, 0x11), (1016, 1), (997, 1), (996, 2)]

/-- P4, instruction 14. -/
theorem test_reti_restores : answers (step (onStack 982 p4Context (atPins 1 0 0 (small 0x1f000000#32 [(16, 0x80), (17, 0x55)] [(9, 0x1), (11, 0x1), (1, 0x80)] 0x0 0x13))))
    (fun t => t.pc == 0x0E && t.sr == 0x20 && t.reg 16 == 1 && t.reg 17 == 2 && t.prev.get 0 == 1 && t.stack.sp == 1024 && memRead t 1 == 0x80 && t.ir == 0x12110000) = true := by decide +kernel

/-! ## Interrupts, decode error, reset -/

/-- P4, instruction 9: the whole stack against the listed context. -/
theorem test_dispatch : answers (step (atPins 1 0 0 (small 0x12110000#32 [(16, 0x1), (17, 0x1)] [(9, 0x1), (11, 0x1), (0, 0x1)] 0x20 0xd)))
    (fun t => t.pc == 2 && t.sr == 0 && t.reg 17 == 2 && memRead t 10 == 0 && t.prev.get 0 == 1 && t.stack == (onStack 982 p4Context t).stack) = true := by decide +kernel
/-- P6, instruction 9. -/
theorem test_dispatch_lowest : answers (step (atPins 0 1 1 (small 0x16170000#32 [] [(9, 0x7), (11, 0xff), (12, 0xff), (13, 0xff)] 0x20 0x17)))
    (fun t => t.pc == 4 && memRead t 10 == 4 && t.stack.sp == 982) = true := by decide +kernel
/-- V1, instruction 6. -/
theorem test_dispatch_behind_sei : answers (step (small 0x24000000#32 [] [(9, 0x1), (10, 0x1), (11, 0x1)] 0x0 0x5))
    (fun t => t.pc == 2 && t.sr == 0 && memRead t 10 == 0 && Memory.lookup t.stack.cells 1023 == 6 && Memory.lookup t.stack.cells 1021 == 0x20) = true := by decide +kernel
/-- V1, instruction 4. -/
theorem test_no_dispatch_without_enable : answers (step (atPins 1 0 0 (small 0x00000000#32 [] [(9, 0x1), (11, 0x1)] 0x0 0x3)))
    (fun t => t.pc == 4 && memRead t 10 == 1 && memRead t 2 == 1 && t.stack.sp == 1024) = true := by decide +kernel
/-- V2, instruction 4. -/
theorem test_software_interrupt : answers (step (small 0x030a0010#32 [(16, 0x2)] [(9, 0x2)] 0x20 0x3))
    (fun t => t.pc == 4 && memRead t 10 == 0 && Memory.lookup t.stack.cells 1019 == 0x0A && Memory.lookup t.stack.cells 997 == 2) = true := by decide +kernel
/-- V6, instruction 4. -/
theorem test_dispatch_short_stack : answers (step (onStack 10 [] (small 0x24000000#32 [(16, 0x4)] [(9, 0x4), (10, 0x4)] 0x0 0x3)))
    (fun t => t.pc == 6 && t.stack == (onStack 0 [(9, 4), (8, 0x24000000), (7, 0x20), (6, 0x24)] t).stack) = true := by decide +kernel
/-- V5, instruction 8. -/
theorem test_reti_dispatches_at_once : answers (step (onStack 982 [(1023, 0x0C), (1021, 0x20), (1016, 1)] (small 0x1f000000#32 [] [(9, 0x1), (10, 0x1), (11, 0x1)] 0x0 0x3)))
    (fun t => t.pc == 2 && t.sr == 0 && t.stack.sp == 982 && memRead t 10 == 0 && t.prev.get 0 == 0 && Memory.lookup t.stack.cells 1023 == 0x0C) = true := by decide +kernel
/-- X1: the state after a decode error is the reset state exactly, the program apart. -/
theorem test_decode_error :
    answers (step (atPins 1 1 1 (onStack 1000 [] (small 0x26000000#32 [(1, 1)] [(0x100, 5)] 0x39 0x10))))
      (fun t => t == { State.reset with
        pm := [(0x10, 0x26000000)]
        pinIn := #v[1, 1, 1] }) = true := by decide +kernel
/-- X2: rst at an edge gives the same state. -/
theorem test_rst :
    answers (step ((small 0x01100005#32 [(1, 1)] [(0x100, 5)] 0x39 0x10).setHost #v[0, 0, 0] [⟨true, #v[0, 0, 0]⟩]))
      (fun t => t == { State.reset with pm := [(0x10, 0x01100005)] }) = true := by decide +kernel
/-- The tick-level trace of E2 at address 0: after the FETCH, DECODE and EXECUTE tick. -/
theorem test_ticks :
    answers (tick (small 0x01100005#32 [] [] 0 0)) (fun t => t.execState == .decode && t.pc == 1 && t.ir == 0x01100005 &&
      t.opc == 0 && answers (tick t) (fun u => u.execState == .execute && u.opc == 1 && u.op1 == 0x10 && u.op2 == 5 &&
        u.reg 16 == 0 && answers (tick u) (fun v => v.execState == .fetch && v.pc == 1 && v.reg 16 == 5))) = true := by
  decide +kernel
/-- J7, the step after it: pc wraps modulo 2^32 (R25). -/
theorem test_pc_wraps : answers (step { State.reset with pc := 0xFFFFFFFF }) (fun t => t.pc == 0 && t.lfa == 0xFFFFFFFF) = true := by
  decide +kernel
/-- `withFetchWord`: the next step runs the word as the first instruction after reset (vector E2). -/
theorem test_withFetchWord : answers (step (State.reset.withFetchWord 32 0x01100005)) (leaves 16 5 0 1) = true := by
  decide +kernel
/-- The host's load: words from address 0 on, NOP_WORD elsewhere (R62). -/
theorem test_load : (State.reset.load [0x01100005, 0x00000000, 0x1F000000]).pm = [(0, 0x01100005), (2, 0x1F000000)] := by
  decide +kernel

/-! ## Witnesses: a concrete state and operands for every statement with hypotheses -/

section Witnesses

/-- The reset state with another execution state. -/
def inState (e : ExecState) : State := State.reset.setExecState e

/-- A stack with its pointer at `sp` and no cell written. -/
def stackAt (sp : Fin 1025) : Stack := { cells := [], sp := sp }

theorem witness_DecodeEncodeAgree :
    (decode 0x01100005#32 = .ok (.ldi 16 5) ∧ wordWellFormed 0x01100005#32 = true) ∧
      decode 0x0130FFFF#32 = .ok (.ldi 16 0xFFFF) ∧ wordWellFormed 0x0130FFFF#32 = false := by decide
theorem witness_DecoderTotalAndIgnoresUnusedBits :
    ((0x25FFFFFF#32).toNat < 0x26000000 ∧ 0x26000000 ≤ (0x26000000#32).toNat) ∧ formOf 0x25 = some .N ∧
    formOf 0x16 = some .T ∧ (formOf 0x23 = some .R ∧ regOf (0x1F : BitVec 8) = regOf (0xFF : BitVec 8)) ∧
    ((formOf 0x01 = some .RI ∨ formOf 0x01 = some .RA) ∧ regOf (0x00 : BitVec 8) = regOf (0x20 : BitVec 8)) ∧
    (formOf 0x02 = some .RR ∧ regOf (0x1F : BitVec 8) = regOf (0x3F : BitVec 8) ∧
      regOf (0x0000 : BitVec 16) = regOf (0xFFE0 : BitVec 16)) ∧
    (formOf 0x03 = some .AR ∧ regOf (0x001F : BitVec 16) = regOf (0xFFFF : BitVec 16)) := by decide
theorem witness_WorkedEncodingsDecode : (0x25FFFFFF#32).toNat < 0x26000000 := by decide
theorem witness_AluOperationRules : AluOp.bor = .bor ∨ AluOp.bor = .band ∨ AluOp.bor = .bxor := .inl rfl
theorem witness_AluLawsAndIdentities : AluOp.bxor = .bor ∨ AluOp.bxor = .band ∨ AluOp.bxor = .bxor := .inr (.inr rfl)
theorem witness_CompareThenBranchIsSigned :
    ((∃ rs, Instr.cp 1 2 = .cp 1 rs ∧ (0 : Word) = State.reset.reg rs) ∨
      ∃ k : BitVec 16, Instr.cp 1 2 = .cpi 1 k ∧ (0 : Word) = BitVec.ofNat 32 k.toNat) ∧
    ((∃ rs, Instr.cpi 1 0xFFFF = .cp 1 rs ∧ (0xFFFF : Word) = State.reset.reg rs) ∨
      ∃ k : BitVec 16, Instr.cpi 1 0xFFFF = .cpi 1 k ∧ (0xFFFF : Word) = BitVec.ofNat 32 k.toNat) :=
  ⟨.inl ⟨2, rfl, rfl⟩, .inr ⟨0xFFFF, rfl, rfl⟩⟩
theorem witness_DataMemoryContract : (511 < 512 ∧ 512 ≤ 512) ∧ memRead (memWrite 511 7 State.reset) 511 = 7 ∧
    memRead (memWrite 512 7 State.reset) 512 = 0 := by decide +kernel
theorem witness_ProgramFetchContract : (255#32).toNat < 256 ∧ 256 ≤ (256#32).toNat ∧
    pmRead { State.reset with pm := [(255, 0x24000000)] } 255 = 0x24000000 := by decide +kernel
theorem witness_StackPushPopContract : (stackAt 0).sp.val = 0 ∧ (stackAt 1).sp.val ≠ 0 ∧ (stackAt 1024).sp.val = 1024 ∧
    (stackAt 1023).sp.val ≠ 1024 := by decide
theorem witness_StackResetAndLifo : ([1, 2, 3] : List Word).length ≤ (stackAt 3).sp.val := by decide
theorem witness_NopStepOnlyAdvancesPc : State.reset.execState = .fetch ∧ noRst 3 State.reset ∧
    decode (pmRead State.reset State.reset.pc) = .ok .nop :=
  ⟨rfl, noRst_of_all (by decide +kernel), by decide +kernel⟩
theorem witness_OutResult : (2#8 = 2#8) ∧ (1#8 ≠ 2#8) ∧ (3#8 ≠ 2#8) ∧ (255#8 ≠ 2#8) := by decide
theorem witness_InLdsResult : (511#16).toNat < 512 ∧ 512 ≤ (512#16).toNat ∧ (255#16).toNat < 256 ∧
    256 ≤ (256#16).toNat := by decide
theorem witness_StoresKeepToTheirHalf : 256 ≤ 256 ∧ 255 < 256 := by decide
/-- The three pairs of the statement, each meeting its hypothesis. -/
theorem witness_BranchPredicatesComplement :
    ((Instr.brgt 0xFF = .brgt 0xFF ∧ Instr.brle 0xFF = .brle 0xFF) ∨ (Instr.brgt 0xFF = .brge 0xFF ∧ Instr.brle 0xFF = .brlt 0xFF) ∨
      (Instr.brgt 0xFF = .breq 0xFF ∧ Instr.brle 0xFF = .brne 0xFF)) ∧
    ((Instr.brge 0 = .brgt 0 ∧ Instr.brlt 0 = .brle 0) ∨ (Instr.brge 0 = .brge 0 ∧ Instr.brlt 0 = .brlt 0) ∨
      (Instr.brge 0 = .breq 0 ∧ Instr.brlt 0 = .brne 0)) ∧
    ((Instr.breq 0 = .brgt 0 ∧ Instr.brne 0 = .brle 0) ∨ (Instr.breq 0 = .brge 0 ∧ Instr.brne 0 = .brlt 0) ∨
      (Instr.breq 0 = .breq 0 ∧ Instr.brne 0 = .brne 0)) := by decide
/-- A subroutine that pushes 7 and pops it leaves a dead cell that CALL's stack does not have. -/
theorem witness_CallThenRetReturns :
    ∃ t u : State, (State.reset.setPc 1).stack.sp.val ≠ 0 ∧ exec (.call 0x80) (State.reset.setPc 1) = .next t ∧
      u.stack ≠ t.stack ∧ u.stack.sp = t.stack.sp ∧
      ∀ a, u.stack.sp.val ≤ a → Memory.lookup u.stack.cells a = Memory.lookup t.stack.cells a := by
  refine ⟨_, popState (pushWord 7 ((pushWord 1 (State.reset.setPc 1)).setPc (targetOperand 0x80))), by decide, rfl,
    by decide +kernel, by decide +kernel, fun a ha => ?_⟩
  have h : a ≠ 1022 := by
    rintro rfl
    revert ha
    decide +kernel
  simp [Stack.push_sp, Stack.push_lookup, h]
theorem witness_ShiftResult : 30 < 31 ∧ 0 < 31 := by decide
/-- Source 2 enabled and pending, I clear: both clauses have their source. -/
theorem witness_SeiCliActAtOwnBoundary :
    (memRead (small 0 [] [(9, 4), (10, 4)] 0 0) 9).getLsbD 2 = true ∧
    pendingAfter (small 0 [] [(9, 4), (10, 4)] 0 0) 2 = true := by decide +kernel
/-- Exactly 42 words on the stack, the STATE word at its highest legal value, SR's bit 4 the highest below I. -/
theorem witness_RetiRestoresContext :
    (onStack 982 [(1017, 2)] State.reset).stack.sp.val + 42 ≤ 1024 ∧ 4 < 5 ∧
    (Memory.lookup (onStack 982 [(1017, 2)] State.reset).stack.cells 1017).toNat % 4 ≠ 3 := by decide +kernel
/-- 41 words on the stack, STATE's word the highest legal one and SR's the deepest but two; and an empty stack. -/
theorem witness_RetiShortStack : 1024 < (onStack 983 [(1018, 2)] State.reset).stack.sp.val + 42 ∧ 4 < 5 ∧
    (wordAbove 35 (onStack 983 [(1018, 2)] State.reset).stack).toNat % 4 ≠ 3 ∧
    1024 < State.reset.stack.sp.val + 42 ∧ (wordAbove 35 State.reset.stack).toNat % 4 ≠ 3 ∧
    State.reset.stack.sp.val = 1024 := by decide +kernel
theorem witness_RegistersChangeOnlyAsDestination :
    exec (.inc 17) State.reset = .next (aluWriteBack .add 17 1 State.reset) ∧ Instr.inc 17 ≠ .reti ∧
    destReg (.inc 17) ≠ some 16 := ⟨rfl, by decide, by decide⟩
theorem witness_FlagsChangeOnlyByTheirWriters :
    exec (.lsl 3) State.reset = .next (State.reset.setReg 3 (State.reset.reg 3 <<< 1)) ∧ Instr.lsl 3 ≠ .reti ∧
    writesAluFlags (.lsl 3) = false ∧ Instr.lsl 3 ≠ .sei ∧ Instr.lsl 3 ≠ .cli :=
  ⟨rfl, by decide, by decide, by decide, by decide⟩
theorem witness_PcAndStackChangeOnlyByTheirWriters :
    exec .nop State.reset = .next State.reset ∧ writesPc .nop = false ∧ usesStack .nop = false :=
  ⟨rfl, by decide, by decide⟩
theorem witness_SignLawKeptButByReti : State.reset.signLaw ∧
    exec (.inc 17) State.reset = .next (aluWriteBack .add 17 1 State.reset) ∧ Instr.inc 17 ≠ .reti :=
  ⟨rfl, rfl, by decide⟩
/-- N, V and C all set against a status register with none set. -/
theorem witness_NegativeOverflowCarryNotRead :
    exec (.brge 0x40) State.reset = .next (State.reset.setPc (targetOperand 0x40)) ∧
    (0x0B : BitVec 6).getLsbD 5 = State.reset.flagI ∧ (0x0B : BitVec 6).getLsbD 4 = State.reset.flagS ∧
    (0x0B : BitVec 6).getLsbD 2 = State.reset.flagZ := ⟨rfl, by decide, by decide, by decide⟩
theorem witness_StepRunsDecodedInstruction :
    (small 0x01100005#32 [] [] 0 255).execState = .fetch ∧ noRst 3 (small 0x01100005#32 [] [] 0 255) ∧
    decode (pmRead (small 0x01100005#32 [] [] 0 255) 255) = .ok (.ldi 16 5) :=
  ⟨by decide +kernel, noRst_of_all (by decide +kernel), by decide +kernel⟩
theorem witness_FetchAndDecodeTicks : (inState .fetch).execState = .fetch ∧ (inState .decode).execState = .decode := by
  decide
theorem witness_BeyondProgramMemoryRunsNop :
    (State.reset.setPc 256).execState = .fetch ∧ noRst 3 (State.reset.setPc 256) ∧ 256 ≤ (State.reset.setPc 256).pc.toNat ∧
    noRst 3 (State.reset.setPc 0xFFFFFFFF) ∧ 256 ≤ (State.reset.setPc 0xFFFFFFFF).pc.toNat :=
  ⟨rfl, noRst_of_all (by decide +kernel), by decide, noRst_of_all (by decide +kernel), by decide⟩
/-- The edge behind the last one of each step may well have rst. -/
def rstAfter (k : Nat) (s : State) : State :=
  s.setHost s.pinIn (List.replicate k ⟨false, s.pinIn⟩ ++ [⟨true, s.pinIn⟩])
theorem witness_StepIsTheRemainingTicks :
    ((rstAfter 1 (inState .execute)).execState = .execute ∧ noRst 1 (rstAfter 1 (inState .execute))) ∧
    ((rstAfter 2 (inState .decode)).execState = .decode ∧ noRst 2 (rstAfter 2 (inState .decode))) ∧
    ((rstAfter 3 (inState .fetch)).execState = .fetch ∧ noRst 3 (rstAfter 3 (inState .fetch))) :=
  ⟨⟨rfl, noRst_of_all (by decide +kernel)⟩, ⟨rfl, noRst_of_all (by decide +kernel)⟩,
    ⟨rfl, noRst_of_all (by decide +kernel)⟩⟩
theorem witness_ResetInputOverridesTick : rstAsserted (rstAfter 0 (inState .decode)) = true := by decide
theorem witness_DecodeErrorIsFullReset :
    ({ inState .execute with opc := 0x26 }.execState = .execute ∧ 0x25 < { inState .execute with opc := 0x26 }.opc.toNat) ∧
    (small 0x26000000#32 [] [] 0 0).execState = .fetch ∧ noRst 3 (small 0x26000000#32 [] [] 0 0) ∧
    0x26000000 ≤ (pmRead (small 0x26000000#32 [] [] 0 0) 0).toNat :=
  ⟨by decide, by decide +kernel, noRst_of_all (by decide +kernel), by decide +kernel⟩
theorem witness_ResetValues : resetMachine (inState .decode) = resetMachine (inState .decode) ∨
    resetMachine (inState .decode) = State.reset := .inl rfl
theorem witness_ProgramMemoryNeverWritten : step (inState .execute) = .next (boundary (inState .fetch)) :=
  next_of_answers (by decide +kernel)
theorem witness_DiagnosticAddressNotRead :
    step { inState .execute with lfa := 5 } = .next { boundary (inState .fetch) with lfa := 5 } :=
  next_of_answers (by decide +kernel)
theorem witness_BoundarySamplesAndDetects :
    (0 ≠ 2 ∧ 0 ≠ 5 ∧ 0 ≠ 8 ∧ 0 ≠ 10) ∧ (∀ n : Port, mayDispatch State.reset n = false) ∧ 3 ≤ 3 := by decide +kernel
/-- Sources 1 and 2 may be dispatched, source 0 may not; with 42 free cells the last register fits, with 41 it does not but
every word before it does. -/
theorem witness_BoundaryDispatchesLowestEligible :
    (∀ sp : Fin 2, let s := onStack (if sp = 0 then 42 else 41) [] (small 0 [] [(9, 6), (10, 7)] 0x20 0)
      mayDispatch s 1 = true ∧ (∀ m : Port, m < 1 → mayDispatch s m = false) ∧ 6 < s.stack.sp.val ∧
      7 + (2 : Port).val < s.stack.sp.val ∧ 10 + (30 : Reg).val < s.stack.sp.val) ∧
    10 + (31 : Reg).val < (stackAt 42).sp.val ∧ ¬ 10 + (31 : Reg).val < (stackAt 41).sp.val ∧
    (42 ≤ 42 ∨ 42 + 42 < 42) ∧ (1024 ≤ 981 ∨ 981 + 42 < 1024) := by
  decide +kernel
theorem witness_DispatchSavesContext : 42 ≤ (onStack 42 [] State.reset).stack.sp.val ∧ (42 ≤ 42 ∨ 42 < 42 - 42) := by decide
theorem witness_DispatchDropsWhatFindsNoRoom : (onStack 41 [] State.reset).stack.sp.val < 42 ∧ 40 < 41 ∧ 41 ≤ 41 := by decide
/-- The handler is at its RETI at once: the state right after the dispatch. -/
theorem witness_ContextSymmetry :
    (onStack 42 [] (State.reset.setSr 0x20)).headroom = true ∧ (onStack 42 [] (State.reset.setSr 0x20)).flagI = true ∧
    ∃ u : State, u.stack.sp = (dispatchInterrupt 0 (onStack 42 [] (State.reset.setSr 0x20))).stack.sp ∧
      ∀ a, u.stack.sp.val ≤ a → Memory.lookup u.stack.cells a =
        Memory.lookup (dispatchInterrupt 0 (onStack 42 [] (State.reset.setSr 0x20))).stack.cells a :=
  ⟨by decide, by decide, dispatchInterrupt 0 (onStack 42 [] (State.reset.setSr 0x20)), rfl, fun _ _ => rfl⟩
theorem witness_RetiDispatchesPendingAtOnce :
    (memRead (small 0 [] [(9, 6), (10, 4)] 0 0) 9).getLsbD 2 = true ∧
    (memRead (small 0 [] [(9, 6), (10, 4)] 0 0) 10).getLsbD 2 = true := by decide +kernel
theorem witness_StepKeepsCanonicalMemories : (inState .execute).wf = true ∧
    step (inState .execute) = .next (boundary (inState .fetch)) :=
  ⟨by decide +kernel, next_of_answers (by decide +kernel)⟩

end Witnesses

end Sys2Proof.Tests
end

section
/-! The Operations of the 38 instructions by the thirteen effects they come to. Every fact about all instructions below is a case
split over these effects and not over the instructions (41_control_cycle.md R156, the operand forms of 30_encoding.md R105). -/

namespace Sys2Proof.Machine

/-- Where the word that an instruction loads or hands to the ALU comes from. None of the places is SR, pc or LFA. -/
inductive Source where
  | const (w : Word)
  | reg (r : Reg)
  | cell (a : Nat)
  | shiftedLeft (r : Reg)
  | shiftedRight (r : Reg)

/-- The word itself. -/
def Source.read (s : State) : Source → Word
  | .const w => w
  | .reg r => s.reg r
  | .cell a => memRead s a
  | .shiftedLeft r => s.reg r <<< 1
  | .shiftedRight r => s.reg r >>> 1

/-- What an instruction's Operation comes to. A branch condition is a function of S and Z, the two flags that a branch may
read (R29). -/
inductive Effect where
  | skip
  | load (rd : Reg) (src : Source)
  | out (a : Nat) (rs : Reg)
  | store (a : Nat) (rs : Reg)
  | alu (op : AluOp) (rd : Reg) (src : Source)
  | compare (rd : Reg) (src : Source)
  | branch (taken : Bool → Bool → Bool) (target : BitVec 8)
  | call (target : BitVec 8)
  | ret
  | reti
  | push (rs : Reg)
  | pop (rd : Reg)
  | setI (b : Bool)

namespace Effect

/-- The state an effect leaves, through the machine's own operations. -/
def run (s : State) : Effect → State
  | skip => s
  | load rd src => s.setReg rd (src.read s)
  | out a rs => outWrite a (s.reg rs) s
  | store a rs => memWrite a (s.reg rs) s
  | alu op rd src => aluWriteBack op rd (src.read s) s
  | compare rd src => aluCompare rd (src.read s) s
  | branch taken target => branchIf (taken s.flagS s.flagZ) target s
  | call target => (pushWord s.pc s).setPc (targetOperand target)
  | ret => (popState s).setPc (popValue s)
  | reti => setFlagI true (restoreContext s)
  | push rs => pushWord (s.reg rs) s
  | pop rd => (popState s).setReg rd (popValue s)
  | setI b => setFlagI b s

/-- The one register an effect writes; RETI's, which writes all, has none. -/
def dest : Effect → Option Reg
  | load rd _ | alu _ rd _ | pop rd => some rd
  | _ => none

/-- The effects that write S N Z V C together. -/
def writesAluFlags : Effect → Bool
  | alu .. | compare .. => true
  | _ => false

/-- The effects that may write pc. -/
def writesPc : Effect → Bool
  | branch .. | call .. | ret | reti => true
  | _ => false

/-- The effects that use the stack. -/
def usesStack : Effect → Bool
  | call .. | ret | reti | push .. | pop .. => true
  | _ => false

/-- The effect of each instruction. -/
def ofInstr : Instr → Effect
  | .nop => skip
  | .ldi rd imm => load rd (.const (immOperand imm))
  | .mov rd rs => load rd (.reg rs)
  | .out addr rs => out (outAddr addr) rs
  | .in_ rd addr => load rd (.cell (inAddr addr))
  | .sts addr rs => store (stsAddr addr) rs
  | .lds rd addr => load rd (.cell (ldsAddr addr))
  | .clr rd => load rd (.const 0#32)
  | .ori rd imm => alu .bor rd (.const (immOperand imm))
  | .andi rd imm => alu .band rd (.const (immOperand imm))
  | .xori rd imm => alu .bxor rd (.const (immOperand imm))
  | .orr rd rs => alu .bor rd (.reg rs)
  | .andr rd rs => alu .band rd (.reg rs)
  | .xorr rd rs => alu .bxor rd (.reg rs)
  | .addi rd imm => alu .add rd (.const (immOperand imm))
  | .subi rd imm => alu .sub rd (.const (immOperand imm))
  | .add rd rs => alu .add rd (.reg rs)
  | .sub rd rs => alu .sub rd (.reg rs)
  | .inc rd => alu .add rd (.const 1#32)
  | .dec rd => alu .sub rd (.const 1#32)
  | .cpi rd imm => compare rd (.const (immOperand imm))
  | .cp rd rs => compare rd (.reg rs)
  | .jmp target => branch (fun _ _ => true) target
  | .breq target => branch (fun _ z => z) target
  | .brne target => branch (fun _ z => !z) target
  | .brge target => branch (fun sg _ => !sg) target
  | .brgt target => branch (fun sg z => !sg && !z) target
  | .brle target => branch (fun sg z => sg || z) target
  | .brlt target => branch (fun sg _ => sg) target
  | .call target => call target
  | .ret => ret
  | .reti => reti
  | .push rs => push rs
  | .pop rd => pop rd
  | .lsl rd => load rd (.shiftedLeft rd)
  | .lsr rd => load rd (.shiftedRight rd)
  | .sei => setI true
  | .cli => setI false

end Effect

/-! ### The effects are the model's: the Operation, and the statements' lists of writers -/

/-- Every instruction completes with its effect (R156). -/
theorem exec_eq_run (i : Instr) (s : State) : exec i s = .next ((Effect.ofInstr i).run s) := by
  cases i <;> rfl

theorem exec_next_iff {i : Instr} {s t : State} : exec i s = .next t ↔ t = (Effect.ofInstr i).run s := by
  rw [exec_eq_run, Host.Outcome.next.injEq, eq_comm]

theorem dest_ofInstr (i : Instr) : (Effect.ofInstr i).dest = destReg i := by
  cases i <;> rfl

theorem writesAluFlags_ofInstr (i : Instr) : (Effect.ofInstr i).writesAluFlags = writesAluFlags i := by
  cases i <;> rfl

theorem writesPc_ofInstr (i : Instr) : (Effect.ofInstr i).writesPc = writesPc i := by
  cases i <;> rfl

theorem usesStack_ofInstr (i : Instr) : (Effect.ofInstr i).usesStack = usesStack i := by
  cases i <;> rfl

theorem ofInstr_eq_reti {i : Instr} (h : Effect.ofInstr i = .reti) : i = .reti := by
  cases i with
  | reti => rfl
  | _ => cases h

theorem ofInstr_eq_setI {i : Instr} {b : Bool} (h : Effect.ofInstr i = .setI b) : i = .sei ∨ i = .cli := by
  cases i with
  | sei => exact .inl rfl
  | cli => exact .inr rfl
  | _ => cases h

end Sys2Proof.Machine
end

section
/-! Who may write what (10_state.md R22, R24, R27, R28; 20_memory.md R60), effect by effect. -/

namespace Sys2Proof.Machine

variable {s : State} {e : Effect}

/-! ### Registers -/

theorem Effect.run_reg {r : Reg} (he : e ≠ .reti) (hd : e.dest ≠ some r) : (e.run s).reg r = s.reg r := by
  have other {rd : Reg} (h : some rd ≠ some r) : r ≠ rd := fun hr => h (congrArg some hr.symm)
  cases e with
  | load rd src => exact State.reg_setReg_other s _ (other hd)
  | pop rd => exact State.reg_setReg_other (popState s) _ (other hd)
  | alu op rd src => exact aluWriteBack_reg_other s op _ (other hd)
  | out a rs => exact State.reg_congr (outWrite_regs s _ _) r
  | store a rs => exact memWrite_reg s _ _ r
  | branch taken target => rcases branchIf_cases s (taken s.flagS s.flagZ) target with ⟨_, h⟩ | ⟨_, h⟩ <;> simp [run, h]
  | reti => exact absurd rfl he
  | skip | compare | call | ret | push | setI => rfl

/-! ### Flags -/

@[simp] theorem branchIf_sr (s : State) (c : Bool) (x : BitVec 8) : (branchIf c x s).sr = s.sr := by
  cases c <;> rfl

/-- An effect that is none of the writers of SR keeps the whole of it. -/
theorem Effect.run_sr (hw : e.writesAluFlags = false) (he : e ≠ .reti) (hI : ∀ b, e ≠ .setI b) :
    (e.run s).sr = s.sr := by
  cases e with
  | out a rs => exact outWrite_sr s _ _
  | store a rs => exact memWrite_sr s _ _
  | branch taken target => exact branchIf_sr s _ _
  | alu | compare => cases hw
  | reti => exact absurd rfl he
  | setI b => exact absurd rfl (hI b)
  | skip | load | call | ret | push | pop => rfl

theorem Effect.run_aluFlags (hw : e.writesAluFlags = false) (he : e ≠ .reti) : (e.run s).aluFlags = s.aluFlags := by
  by_cases hI : ∃ b, e = .setI b
  · obtain ⟨b, rfl⟩ := hI
    exact setFlagI_aluFlags s b
  · exact (flags_congr (run_sr hw he fun b hb => hI ⟨b, hb⟩)).2

theorem Effect.run_flagI (he : e ≠ .reti) (hI : ∀ b, e ≠ .setI b) : (e.run s).flagI = s.flagI := by
  cases hw : e.writesAluFlags with
  | false => exact (flags_congr (run_sr hw he hI)).1
  | true =>
    cases e with
    | alu op rd src => exact (aluWriteBack_flags s op rd _).2
    | compare rd src => exact (aluCompare_flags s rd _).2
    | _ => cases hw

/-- Every ALU operation's S is N xor V (R136). -/
theorem alu_sign {w : Nat} (op : AluOp) (a b : BitVec w) : (alu op a b).2.s = ((alu op a b).2.n ^^ (alu op a b).2.v) := by
  cases op <;> rfl

/-- The flag law is about the five ALU flags alone. -/
theorem signLaw_congr {s t : State} (h : t.aluFlags = s.aluFlags) (hs : s.signLaw) : t.signLaw := by
  change t.aluFlags.s = (t.aluFlags.n ^^ t.aluFlags.v)
  rw [h]
  exact hs

theorem signLaw_of_alu {t : State} {w : Nat} {op : AluOp} {a b : BitVec w} (h : t.aluFlags = (alu op a b).2) : t.signLaw := by
  change t.aluFlags.s = (t.aluFlags.n ^^ t.aluFlags.v)
  rw [h]
  exact alu_sign op a b

theorem Effect.run_signLaw (he : e ≠ .reti) (hs : s.signLaw) : (e.run s).signLaw := by
  cases hw : e.writesAluFlags with
  | false => exact signLaw_congr (run_aluFlags hw he) hs
  | true =>
    cases e with
    | alu op rd src => exact signLaw_of_alu (aluWriteBack_flags s op rd _).1
    | compare rd src => exact signLaw_of_alu (op := .sub) (aluCompare_flags s rd _).1
    | _ => cases hw

/-- The boundary step changes no flag but I, a dispatch included (R270). -/
@[simp] theorem boundary_aluFlags (s : State) : (boundary s).aluFlags = s.aluFlags := by
  have hs : (detectEdges (samplePins s)).aluFlags = s.aluFlags := (flags_congr (by simp)).2
  rcases boundary_cases s with ⟨_, h⟩ | ⟨n, _, h⟩ <;> simp [h, hs]

/-! ### pc and the stack -/

theorem Effect.run_pc (h : e.writesPc = false) : (e.run s).pc = s.pc := by
  cases e with
  | out a rs => exact outWrite_pc s _ _
  | store a rs => exact memWrite_pc s _ _
  | branch | call | ret | reti => cases h
  | skip | load | alu | compare | push | pop | setI => rfl

@[simp] theorem branchIf_stack (s : State) (c : Bool) (x : BitVec 8) : (branchIf c x s).stack = s.stack := by
  cases c <;> rfl

theorem Effect.run_stack (h : e.usesStack = false) : (e.run s).stack = s.stack := by
  cases e with
  | out a rs => exact outWrite_stack s _ _
  | store a rs => exact memWrite_stack s _ _
  | branch taken target => exact branchIf_stack s _ _
  | call | ret | reti | push | pop => cases h
  | skip | load | alu | compare | setI => rfl

/-! ### The statements -/

/-- Settles O34: an effect writes no register but its destination. -/
theorem registersChangeOnlyAsDestination : Obligations.RegistersChangeOnlyAsDestination := by
  intro i s t r h hi hd
  rw [exec_next_iff.1 h]
  exact Effect.run_reg (mt ofInstr_eq_reti hi) (dest_ofInstr i ▸ hd)

/-- Settles O35: SR as a whole has no writer but these, and of them SEI and CLI write I alone, the ALU never I. -/
theorem flagsChangeOnlyByTheirWriters : Obligations.FlagsChangeOnlyByTheirWriters := by
  intro i s t h hi
  rw [exec_next_iff.1 h, ← writesAluFlags_ofInstr]
  have he := mt ofInstr_eq_reti hi
  refine ⟨fun hw => Effect.run_aluFlags hw he, fun hsei hcli => Effect.run_flagI he fun b hb => ?_⟩
  exact (ofInstr_eq_setI hb).elim hsei hcli

/-- Settles O36, each half over the effects outside its list. -/
theorem pcAndStackChangeOnlyByTheirWriters : Obligations.PcAndStackChangeOnlyByTheirWriters := by
  intro i s t h
  rw [exec_next_iff.1 h, ← writesPc_ofInstr, ← usesStack_ofInstr]
  exact ⟨Effect.run_pc, Effect.run_stack⟩

/-- Settles O37: the ALU's S is N xor V, and whatever else leaves S, N and V leaves them together. -/
theorem signLawKeptButByReti : Obligations.SignLawKeptButByReti := by
  refine ⟨rfl, fun i s t hs h hi => ?_, fun s hs => signLaw_congr (boundary_aluFlags s) hs⟩
  rw [exec_next_iff.1 h]
  exact Effect.run_signLaw (mt ofInstr_eq_reti hi) hs

end Sys2Proof.Machine
end

section
/-! The canonical form of the three memories, kept by every operation, every effect and every step (10_state.md R36, R37, R41;
assumption log 13). -/

namespace Sys2Proof.Machine

theorem State.wf_iff {s : State} :
    s.wf = true ↔ Memory.wf Config.pmSize s.pm = true ∧ Memory.wf Config.dmSize s.dm = true ∧
      Memory.wf Config.stackDepth s.stack.cells = true := by
  simp [State.wf, and_assoc]

/-- A state is as canonical as its three memories. -/
theorem State.wf_congr {s t : State} (h : s.wf = true) (hp : t.pm = s.pm) (hd : t.dm = s.dm)
    (hc : t.stack.cells = s.stack.cells) : t.wf = true := by
  rwa [State.wf, hp, hd, hc]

theorem State.reset_wf : State.reset.wf = true :=
  State.wf_iff.2 ⟨Memory.wf_nil _, Memory.wf_nil _, Memory.wf_nil _⟩

variable {s : State}

/-! ### The operations -/

theorem memWrite_keeps_wf (a : Nat) (v : Word) (h : s.wf = true) : (memWrite a v s).wf = true := by
  obtain ⟨hp, hd, hc⟩ := State.wf_iff.1 h
  exact State.wf_iff.2 ⟨by simpa using hp, memWrite_wf s a v hd, by simpa using hc⟩

theorem outWrite_keeps_wf (a : Nat) (v : Word) (h : s.wf = true) : (outWrite a v s).wf = true := by
  unfold outWrite
  split <;> exact memWrite_keeps_wf _ _ h

/-- A new stack has to be canonical itself. -/
theorem setStack_keeps_wf {st : Stack} (hst : Memory.wf Config.stackDepth s.stack.cells = true →
    Memory.wf Config.stackDepth st.cells = true) (h : s.wf = true) : (s.setStack st).wf = true := by
  obtain ⟨hp, hd, hc⟩ := State.wf_iff.1 h
  exact State.wf_iff.2 ⟨hp, hd, hst hc⟩

theorem pushWord_keeps_wf (v : Word) (h : s.wf = true) : (pushWord v s).wf = true :=
  setStack_keeps_wf (Stack.push_wf v) h

theorem popState_keeps_wf (h : s.wf = true) : (popState s).wf = true :=
  State.wf_congr h rfl rfl (Stack.pop_cells s.stack)

theorem restoreContext_keeps_wf (h : s.wf = true) : (restoreContext s).wf = true :=
  State.wf_congr h (by simp) (by simp) (by simp)

theorem setFlagI_keeps_wf (b : Bool) (h : s.wf = true) : (setFlagI b s).wf = true :=
  State.wf_congr h rfl rfl rfl

theorem branchIf_keeps_wf (c : Bool) (x : BitVec 8) (h : s.wf = true) : (branchIf c x s).wf = true := by
  cases c <;> exact h

/-- Reset empties data memory and the stack and keeps the program. -/
theorem resetMachine_wf (h : Memory.wf Config.pmSize s.pm = true) : (resetMachine s).wf = true :=
  State.wf_iff.2 ⟨h, Memory.wf_nil _, Memory.wf_nil _⟩

/-! ### Instructions and the boundary step -/

theorem Effect.run_wf (e : Effect) (h : s.wf = true) : (e.run s).wf = true := by
  cases e with
  | out a rs => exact outWrite_keeps_wf a _ h
  | store a rs => exact memWrite_keeps_wf a _ h
  | branch taken target => exact branchIf_keeps_wf _ target h
  | call target => exact State.wf_congr (pushWord_keeps_wf s.pc h) rfl rfl rfl
  | push rs => exact pushWord_keeps_wf _ h
  | ret | pop => exact State.wf_congr (popState_keeps_wf h) rfl rfl rfl
  | reti => exact setFlagI_keeps_wf true (restoreContext_keeps_wf h)
  | skip | load | alu | compare | setI => exact State.wf_congr h rfl rfl rfl

theorem samplePins_keeps_wf (h : s.wf = true) : (samplePins s).wf = true :=
  memWrite_keeps_wf _ _ (memWrite_keeps_wf _ _ (memWrite_keeps_wf _ _ h))

theorem detectEdge_keeps_wf (n : Port) (h : s.wf = true) : (detectEdge n s).wf = true := by
  unfold detectEdge
  split
  · exact h
  · exact memWrite_keeps_wf ifrAddr _ h

theorem detectEdges_keeps_wf (h : s.wf = true) : (detectEdges s).wf = true :=
  detectEdge_keeps_wf 2 (detectEdge_keeps_wf 1 (detectEdge_keeps_wf 0 h))

theorem dispatchInterrupt_keeps_wf (n : Port) (h : s.wf = true) : (dispatchInterrupt n s).wf = true := by
  have hclear : (clearFlag n s).wf = true := memWrite_keeps_wf _ _ h
  have hsave : (saveContext (clearFlag n s)).wf = true := setStack_keeps_wf (Stack.pushAll_wf _) hclear
  exact State.wf_congr hsave rfl rfl rfl

theorem boundary_keeps_wf (h : s.wf = true) : (boundary s).wf = true := by
  have hd : (detectEdges (samplePins s)).wf = true := detectEdges_keeps_wf (samplePins_keeps_wf h)
  rcases boundary_cases s with ⟨_, hb⟩ | ⟨n, _, hb⟩ <;> rw [hb]
  · exact hd
  · exact dispatchInterrupt_keeps_wf n hd

/-! ### The statements -/

/-- Settles O57: a step is a reset, or an Operation with its boundary step from a machine with the same memories. -/
theorem stepKeepsCanonicalMemories : Obligations.StepKeepsCanonicalMemories := by
  intro s t hs h
  rcases step_cases h with ⟨u, hpm, rfl⟩ | ⟨i, u, v, ⟨_, _, _, hpm, hdm, hstack⟩, _, _, hv, rfl⟩
  · exact resetMachine_wf (hpm ▸ (State.wf_iff.1 hs).1)
  · have hu : u.wf = true := State.wf_congr hs hpm hdm (congrArg Stack.cells hstack)
    have hv' : v.wf = true := exec_next_iff.1 hv ▸ Effect.run_wf _ hu
    exact boundary_keeps_wf hv'

/-- Settles O58: two of the memories are empty after reset, and no program is loaded. -/
theorem resetHasCanonicalMemories : Obligations.ResetHasCanonicalMemories := State.reset_wf

end Sys2Proof.Machine
end

section
/-! What is not read: N, V and C by no instruction and no dispatch decision (10_state.md R29), LFA by nothing (R34). Two runs are
compared, operation by operation. -/

namespace Sys2Proof.Machine

/-! ### N, V and C -/

/-- `u` is `s` with another status register, of the same I, S and Z. -/
def sameButNVC (s u : State) : Prop :=
  ∃ v : BitVec 6, u = s.setSr v ∧ v.getLsbD 5 = s.flagI ∧ v.getLsbD 4 = s.flagS ∧ v.getLsbD 2 = s.flagZ

variable {s u : State}

theorem sameButNVC.refl (s : State) : sameButNVC s s := ⟨s.sr, rfl, rfl, rfl, rfl⟩

theorem sameButNVC.flags (h : sameButNVC s u) : u.flagI = s.flagI ∧ u.flagS = s.flagS ∧ u.flagZ = s.flagZ := by
  obtain ⟨v, rfl, hI, hS, hZ⟩ := h
  exact ⟨hI, hS, hZ⟩

/-- Outside the status register the two machines are one. -/
theorem sameButNVC.eq_setSr (h : sameButNVC s u) : u = s.setSr u.sr := by
  obtain ⟨v, rfl, _⟩ := h
  rfl

/-- Of the status register the dispatch condition reads I alone (R268). -/
theorem sameButNVC.mayDispatch (h : sameButNVC s u) (n : Port) : mayDispatch u n = mayDispatch s n := by
  obtain ⟨v, rfl, hI, _⟩ := h
  have hI' : (s.setSr v).flagI = s.flagI := hI
  simp only [Machine.mayDispatch, hI']
  rfl

/-- An operation that keeps SR and does to all else the same whatever SR holds. -/
theorem sameButNVC.of_commutes {f : State → State} (h : sameButNVC s u) (hf : ∀ v, f (s.setSr v) = (f s).setSr v)
    (hsr : (f s).sr = s.sr) : sameButNVC (f s) (f u) := by
  obtain ⟨v, rfl, hI, hS, hZ⟩ := h
  have hflags : (f s).flagS = s.flagS ∧ (f s).flagZ = s.flagZ := by simp [State.flagS, State.flagZ, hsr]
  exact ⟨v, hf v, hI.trans (flags_congr hsr).1.symm, hS.trans hflags.1.symm, hZ.trans hflags.2.symm⟩

/-- An operation that overwrites all of SR it does not read, and reads I at most. -/
theorem sameButNVC.of_overwrites {f : State → State} (h : sameButNVC s u)
    (hf : ∀ v : BitVec 6, v.getLsbD 5 = s.flagI → f (s.setSr v) = f s) : sameButNVC (f s) (f u) := by
  obtain ⟨v, rfl, hI, _⟩ := h
  rw [hf v hI]
  exact .refl _

theorem memWrite_setSr (s : State) (a : Nat) (x : Word) (v : BitVec 6) :
    memWrite a x (s.setSr v) = (memWrite a x s).setSr v := by
  unfold memWrite
  split <;> rfl

theorem outWrite_setSr (s : State) (a : Nat) (x : Word) (v : BitVec 6) :
    outWrite a x (s.setSr v) = (outWrite a x s).setSr v := by
  unfold outWrite
  split <;> exact memWrite_setSr s _ _ v

theorem branchIf_setSr (s : State) (c : Bool) (x : BitVec 8) (v : BitVec 6) :
    branchIf c x (s.setSr v) = (branchIf c x s).setSr v := by
  cases c <;> rfl

@[simp] theorem Source.read_setSr (src : Source) (s : State) (v : BitVec 6) : src.read (s.setSr v) = src.read s := by
  cases src <;> rfl

/-- An ALU write of the flags leaves nothing of the old SR but I. -/
theorem setFlagsSNZVC_setSr (f : AluFlags) (s : State) {v : BitVec 6} (hI : v.getLsbD 5 = s.flagI) :
    setFlagsSNZVC f (s.setSr v) = setFlagsSNZVC f s := by
  change (s.setSr v).setSr (packSr (v.getLsbD 5) f) = _
  rw [hI]
  rfl

theorem aluWriteBack_setSr (op : AluOp) (rd : Reg) (b : Word) (s : State) {v : BitVec 6} (hI : v.getLsbD 5 = s.flagI) :
    aluWriteBack op rd b (s.setSr v) = aluWriteBack op rd b s :=
  setFlagsSNZVC_setSr _ (s.setReg rd _) hI

theorem aluCompare_setSr (rd : Reg) (b : Word) (s : State) {v : BitVec 6} (hI : v.getLsbD 5 = s.flagI) :
    aluCompare rd b (s.setSr v) = aluCompare rd b s :=
  setFlagsSNZVC_setSr _ s hI

/-- RETI takes the whole status register from the stack (R275). -/
theorem restoreContext_setSr (s : State) (v : BitVec 6) : restoreContext (s.setSr v) = restoreContext s := rfl

theorem sameButNVC.setFlagI (h : sameButNVC s u) (b : Bool) : sameButNVC (setFlagI b s) (setFlagI b u) := by
  obtain ⟨v, rfl, _, hS, hZ⟩ := h
  obtain ⟨hI', hS', -, hZ', -⟩ := packSr_bits b (s.setSr v).aluFlags
  exact ⟨packSr b (s.setSr v).aluFlags, rfl, by simpa using hI', by simpa using hS'.trans hS, by simpa using hZ'.trans hZ⟩

theorem Effect.run_sameButNVC (e : Effect) (h : sameButNVC s u) : sameButNVC (e.run s) (e.run u) := by
  have ⟨hI, hS, hZ⟩ := h.flags
  cases e with
  | skip => exact h
  | load rd src => exact h.of_commutes (f := (load rd src).run) (fun v => by simp only [run, Source.read_setSr]; rfl) rfl
  | out a rs => exact h.of_commutes (f := (out a rs).run) (fun v => outWrite_setSr s a _ v) (outWrite_sr s _ _)
  | store a rs => exact h.of_commutes (f := (store a rs).run) (fun v => memWrite_setSr s a _ v) (memWrite_sr s _ _)
  | alu op rd src =>
    exact h.of_overwrites (f := (alu op rd src).run) fun v hv => by
      simp only [run, Source.read_setSr, aluWriteBack_setSr op rd _ s hv]
  | compare rd src =>
    exact h.of_overwrites (f := (compare rd src).run) fun v hv => by
      simp only [run, Source.read_setSr, aluCompare_setSr rd _ s hv]
  | branch taken target =>
    simp only [run, hS, hZ]
    exact h.of_commutes (branchIf_setSr s _ target) (branchIf_sr s _ target)
  | call target => exact h.of_commutes (f := (call target).run) (fun _ => rfl) rfl
  | ret => exact h.of_commutes (f := ret.run) (fun _ => rfl) rfl
  | reti => exact h.of_overwrites (f := reti.run) fun v _ => congrArg (setFlagI true) (restoreContext_setSr s v)
  | push rs => exact h.of_commutes (f := (push rs).run) (fun _ => rfl) rfl
  | pop rd => exact h.of_commutes (f := (pop rd).run) (fun _ => rfl) rfl
  | setI b => exact h.setFlagI b

/-- Settles O38: each effect overwrites all of SR it does not read, or commutes with a change of N, V and C. -/
theorem negativeOverflowCarryNotRead : Obligations.NegativeOverflowCarryNotRead := by
  intro i s t v h hI hS hZ
  have hs : sameButNVC s (s.setSr v) := ⟨v, rfl, hI, hS, hZ⟩
  have hu := (Effect.ofInstr i).run_sameButNVC hs
  rw [← exec_next_iff.1 h] at hu
  obtain ⟨hI', hS', hZ'⟩ := hu.flags
  exact ⟨_, exec_eq_run i _, hu.eq_setSr, hI', hS', hZ', hu.mayDispatch⟩

end Sys2Proof.Machine
end

section
/-! What a step from FETCH comes to (41_control_cycle.md R152 to R155, R158), the state after reset (10_state.md R44), and that no
part of a step reads LFA (R34). -/

namespace Sys2Proof.Machine

variable {s t : State}

/-! ### The EXECUTE tick -/

theorem executeTick_of_ok {i : Instr} (h : decodeFields s.opc s.op1 s.op2 = .ok i) :
    executeTick s = .next (boundary (((Effect.ofInstr i).run s).setExecState .fetch)) := by
  simp only [executeTick, h, exec_eq_run, finishInstr]

theorem executeTick_of_error {e : DecodeError} (h : decodeFields s.opc s.op1 s.op2 = .error e) :
    executeTick s = .next (resetMachine s) := by
  obtain ⟨opc⟩ := e
  simp only [executeTick, h, raiseDecodeError]

/-! ### Three edges without rst -/

theorem rstAsserted_of_noRst {k : Nat} (h : noRst (k + 1) s) : rstAsserted s = false := by
  unfold rstAsserted
  cases hl : s.inputs with
  | nil => rfl
  | cons a l => exact h a (by simp [hl])

/-- An edge takes one pair from the host's list (log 8). -/
@[simp] theorem presentInputs_inputs (s : State) : (presentInputs s).inputs = s.inputs.tail := by
  unfold presentInputs
  cases hl : s.inputs with
  | nil => exact hl
  | cons a l => rfl

theorem noRst_presentInputs {k : Nat} (h : noRst (k + 1) s) : noRst k (presentInputs s) := by
  intro a ha
  rw [presentInputs_inputs] at ha
  cases hl : s.inputs with
  | nil => simp [hl] at ha
  | cons b l =>
    rw [hl] at ha
    exact h a (by rw [hl]; exact List.mem_cons_of_mem b ha)

/-- FETCH and DECODE with the host's inputs of three edges taken on the way. -/
theorem atExecute_eq (s : State) :
    presentInputs (decodeTick (presentInputs (fetchTick (presentInputs s)))) = atExecute s := by
  obtain ⟨_, _, _, _, _, _, _, _, _, _, _, _, _, _, inputs⟩ := s
  match inputs with
  | [] | [_] | [_, _] | _ :: _ :: _ :: _ => rfl

/-- A step from FETCH is the EXECUTE tick of the state after FETCH and DECODE (R158). -/
theorem step_of_fetch (hs : s.execState = .fetch) (hr : noRst 3 s) : step s = executeTick (atExecute s) := by
  have h1 : noRst 2 (fetchTick (presentInputs s)) := noRst_presentInputs hr
  have h2 : noRst 1 (decodeTick (presentInputs (fetchTick (presentInputs s)))) := noRst_presentInputs h1
  rw [step, instrStep, runEdges_fetch s 2 (rstAsserted_of_noRst hr) hs,
    runEdges_decode _ 1 (rstAsserted_of_noRst h1) rfl, runEdges_execute _ 0 (rstAsserted_of_noRst h2) rfl, atExecute_eq]

/-- The latches hold the fields of the word fetched. -/
theorem decodeFields_atExecute (s : State) :
    decodeFields (atExecute s).opc (atExecute s).op1 (atExecute s).op2 = decode (pmRead s s.pc) := rfl

/-- A word that decodes is run: its Operation, STATE back to FETCH, the boundary step (R154). -/
theorem step_of_decode {i : Instr} (hs : s.execState = .fetch) (hr : noRst 3 s) (hd : decode (pmRead s s.pc) = .ok i) :
    step s = .next (boundary (((Effect.ofInstr i).run (atExecute s)).setExecState .fetch)) := by
  rw [step_of_fetch hs hr, executeTick_of_ok ((decodeFields_atExecute s).trans hd)]

/-- Beyond program memory a fetch reads NOP_WORD (R61). -/
theorem pmRead_beyond {a : Word} (h : 256 ≤ a.toNat) : pmRead s a = Config.nopWord :=
  if_neg (Nat.not_lt.2 h)

theorem decode_nopWord : decode Config.nopWord = .ok .nop := rfl

/-- Settles O43: the word fetched there is NOP_WORD, which decodes to NOP. -/
theorem beyondProgramMemoryRunsNop : Obligations.BeyondProgramMemoryRunsNop := by
  intro s hs hr hpc
  have hd : decode (pmRead s s.pc) = .ok .nop := by rw [pmRead_beyond hpc, decode_nopWord]
  have hstep := step_of_decode hs hr hd
  simp only [Effect.ofInstr, Effect.run] at hstep
  have hnext : (atExecute s).pc = s.pc + 1#32 := rfl
  refine ⟨hstep, by rw [hnext, BitVec.toNat_add]; rfl, fun h => ?_, fun _ => rfl, rfl, fun _ => rfl, rfl⟩
  rw [hnext, h]
  rfl

/-! ### Reset -/

@[simp] theorem State.reset_prev (k : Port) : State.reset.prev.get k = 0#32 := by
  simp [State.reset, Vector.get_eq_getElem]

/-- Settles O48: all but program memory and the host's side of a state after Reset is the reset state's. -/
theorem resetValues : Obligations.ResetValues := by
  rintro s t (rfl | rfl)
  · exact ⟨resetMachine_reg s, rfl, rfl, rfl, rfl, rfl, rfl, rfl, State.reset_prev, rfl, memRead_resetMachine s, rfl,
      Memory.lookup_nil, fun _ => rfl⟩
  · refine ⟨State.reset_reg, rfl, rfl, rfl, rfl, rfl, rfl, rfl, State.reset_prev, rfl, fun a => ?_, rfl,
      Memory.lookup_nil, fun h => (congrArg State.pm h).trans (resetMachine_pm s)⟩
    simp [memRead]

/-! ### LFA -/

/-- The same machine with another diagnostic address. -/
def State.setLfa (s : State) (v : Word) : State := { s with lfa := v }

theorem State.setLfa_stack (s : State) (v : Word) : (s.setLfa v).stack = s.stack := rfl

theorem presentInputs_setLfa (s : State) (v : Word) : presentInputs (s.setLfa v) = (presentInputs s).setLfa v := by
  obtain ⟨_, _, _, _, _, _, _, _, _, _, _, _, _, _, inputs⟩ := s
  cases inputs <;> rfl

theorem memWrite_setLfa (s : State) (a : Nat) (x v : Word) : memWrite a x (s.setLfa v) = (memWrite a x s).setLfa v := by
  unfold memWrite
  split <;> rfl

theorem outWrite_setLfa (s : State) (a : Nat) (x v : Word) : outWrite a x (s.setLfa v) = (outWrite a x s).setLfa v := by
  unfold outWrite
  split <;> exact memWrite_setLfa s _ _ v

theorem branchIf_setLfa (s : State) (c : Bool) (x : BitVec 8) (v : Word) :
    branchIf c x (s.setLfa v) = (branchIf c x s).setLfa v := by
  cases c <;> rfl

@[simp] theorem Source.read_setLfa (src : Source) (s : State) (v : Word) : src.read (s.setLfa v) = src.read s := by
  cases src <;> rfl

theorem setFlagI_setLfa (b : Bool) (s : State) (v : Word) : setFlagI b (s.setLfa v) = (setFlagI b s).setLfa v := rfl

theorem setStack_setLfa (s : State) (st : Stack) (v : Word) : (s.setLfa v).setStack st = (s.setStack st).setLfa v := rfl

theorem loadContext_setLfa (ws : List Word) (s : State) (v : Word) :
    loadContext ws (s.setLfa v) = (loadContext ws s).setLfa v := rfl

theorem poppedContext_setLfa (s : State) (v : Word) : poppedContext (s.setLfa v) = poppedContext s := rfl

theorem contextWords_setLfa (s : State) (v : Word) : contextWords (s.setLfa v) = contextWords s := rfl

/-- No context word goes to LFA (R275). -/
theorem restoreContext_setLfa (s : State) (v : Word) : restoreContext (s.setLfa v) = (restoreContext s).setLfa v := by
  simp only [restoreContext, poppedContext_setLfa, loadContext_setLfa, setStack_setLfa, State.setLfa_stack]

/-- LFA is no part of the context (R271). -/
theorem saveContext_setLfa (s : State) (v : Word) : saveContext (s.setLfa v) = (saveContext s).setLfa v := by
  simp only [saveContext, contextWords_setLfa, setStack_setLfa, State.setLfa_stack]

theorem Effect.run_setLfa (e : Effect) (s : State) (v : Word) : e.run (s.setLfa v) = (e.run s).setLfa v := by
  cases e with
  | load rd src | alu op rd src | compare rd src =>
    simp only [run, Source.read_setLfa]
    rfl
  | out a rs => exact outWrite_setLfa s a _ v
  | store a rs => exact memWrite_setLfa s a _ v
  | branch taken target => exact branchIf_setLfa s _ target v
  | reti => exact (congrArg (setFlagI true) (restoreContext_setLfa s v)).trans (setFlagI_setLfa true _ v)
  | setI b => exact setFlagI_setLfa b s v
  | skip | call | ret | push | pop => rfl

theorem samplePins_setLfa (s : State) (v : Word) : samplePins (s.setLfa v) = (samplePins s).setLfa v := by
  have one (n : Port) (u : State) : samplePin n (u.setLfa v) = (samplePin n u).setLfa v := memWrite_setLfa u _ _ v
  simp only [samplePins, one]

theorem detectEdge_setLfa (n : Port) (s : State) (v : Word) : detectEdge n (s.setLfa v) = (detectEdge n s).setLfa v := by
  have hc : changedPins n (s.setLfa v) = changedPins n s := rfl
  have hf : raiseFlag n (s.setLfa v) = (raiseFlag n s).setLfa v := memWrite_setLfa s _ _ v
  simp only [detectEdge, hc, hf]
  split <;> rfl

theorem detectEdges_setLfa (s : State) (v : Word) : detectEdges (s.setLfa v) = (detectEdges s).setLfa v := by
  simp only [detectEdges, detectEdge_setLfa]

theorem dispatchInterrupt_setLfa (n : Port) (s : State) (v : Word) :
    dispatchInterrupt n (s.setLfa v) = (dispatchInterrupt n s).setLfa v := by
  have hc : clearFlag n (s.setLfa v) = (clearFlag n s).setLfa v := memWrite_setLfa s _ _ v
  rw [dispatchInterrupt, hc, saveContext_setLfa, setFlagI_setLfa, dispatchInterrupt]
  rfl

theorem boundary_setLfa (s : State) (v : Word) : boundary (s.setLfa v) = (boundary s).setLfa v := by
  have hsel (u : State) : selectSource (u.setLfa v) = selectSource u := rfl
  simp only [boundary, samplePins_setLfa, detectEdges_setLfa, hsel]
  split
  · rfl
  · exact dispatchInterrupt_setLfa _ _ v

theorem executeTick_setLfa (h : executeTick s = .next t) (v : Word) :
    ∃ w, executeTick (s.setLfa v) = .next (t.setLfa w) := by
  cases hd : decodeFields s.opc s.op1 s.op2 with
  | ok i =>
    rw [executeTick_of_ok hd] at h
    cases h
    refine ⟨v, (executeTick_of_ok (s := s.setLfa v) hd).trans ?_⟩
    rw [Effect.run_setLfa, ← boundary_setLfa]
    rfl
  | error e =>
    rw [executeTick_of_error hd] at h
    cases h
    exact ⟨State.reset.lfa, executeTick_of_error (s := s.setLfa v) hd⟩

/-- One edge: FETCH writes LFA anew and a reset clears it, every other tick leaves it. -/
theorem clockEdge_setLfa (h : clockEdge s = .next t) (v : Word) :
    ∃ w, clockEdge (s.setLfa v) = .next (t.setLfa w) := by
  cases hr : rstAsserted s with
  | true =>
    rw [clockEdge_rst s hr] at h
    cases h
    rw [clockEdge_rst (s.setLfa v) hr, presentInputs_setLfa]
    exact ⟨State.reset.lfa, rfl⟩
  | false =>
    cases he : s.execState with
    | fetch =>
      rw [clockEdge_fetch s hr he] at h
      cases h
      rw [clockEdge_fetch (s.setLfa v) hr he, presentInputs_setLfa]
      exact ⟨(presentInputs s).pc, rfl⟩
    | decode =>
      rw [clockEdge_decode s hr he] at h
      cases h
      rw [clockEdge_decode (s.setLfa v) hr he, presentInputs_setLfa]
      exact ⟨v, rfl⟩
    | execute =>
      rw [clockEdge_execute s hr he] at h
      rw [clockEdge_execute (s.setLfa v) hr he, presentInputs_setLfa]
      exact executeTick_setLfa h v

theorem runEdges_setLfa (k : Nat) : ∀ {s : State} (v : Word), runEdges k s = .next t →
    ∃ w, runEdges k (s.setLfa v) = .next (t.setLfa w) := by
  induction k with
  | zero =>
    rintro s v ⟨⟩
    exact ⟨v, rfl⟩
  | succ k ih =>
    intro s v h
    cases hc : clockEdge s with
    | fault f => simp [runEdges, hc] at h
    | refused r => simp [runEdges, hc] at h
    | next u =>
      obtain ⟨x, hx⟩ := clockEdge_setLfa hc v
      have hends : endsInstr (s.setLfa v) = endsInstr s := rfl
      simp only [runEdges, hc] at h
      simp only [runEdges, hx, hends]
      split at h
      · cases h
        exact ⟨x, if_pos ‹_›⟩
      · rw [if_neg ‹_›]
        exact ih x h

/-- Settles O50, edge by edge. -/
theorem diagnosticAddressNotRead : Obligations.DiagnosticAddressNotRead := by
  intro s t v h
  obtain ⟨w, hw⟩ := runEdges_setLfa 3 v h
  exact ⟨t.setLfa w, hw, rfl⟩

end Sys2Proof.Machine
end

section
/-! Data memory, program memory and the stack (20_memory.md R61 to R79): what a read, a write, a push and a pop come to over
the whole address range, runs of pushes undone by runs of pops, and that no step writes program memory (R62). -/

namespace Sys2Proof.Machine

variable {s : State}

/-! ### Data memory -/

/-- A read in range is the cell. -/
theorem memRead_below {a : Nat} (h : a < 512) : memRead s a = Memory.lookup s.dm a := if_pos h

/-- A read out of range is 0 (R64). -/
theorem memRead_beyond {a : Nat} (h : 512 ≤ a) : memRead s a = 0#32 := if_neg (Nat.not_lt.2 h)

/-- A write out of range changes nothing (R65). -/
theorem memWrite_beyond {a : Nat} (v : Word) (h : 512 ≤ a) : memWrite a v s = s := if_neg (Nat.not_lt.2 h)

/-- A write changes no other cell and no other piece of state (R65). -/
theorem onlyCell_memWrite (s : State) (a : Nat) (v : Word) : onlyCell a s (memWrite a v s) := by
  have hrest : keepsRest s (memWrite a v s) := by simp [keepsRest]
  exact ⟨memWrite_reg s a v, memWrite_sr s a v, memWrite_pc s a v, memWrite_stack s a v,
    fun _ => memRead_memWrite_other s v, hrest⟩

/-! ### OUT and STS -/

/-- OUT's write to an address of the I/O sub-range leaves the data region, the toggle write to PORT0 included (R70, R72). -/
theorem memRead_outWrite_data {a b : Nat} (v : Word) (ha : a < 256) (hb : 256 ≤ b) :
    memRead (outWrite a v s) b = memRead s b := by
  have hport : b ≠ 1 := by omega
  have hcell : b ≠ a := by omega
  simp [memRead_outWrite, hport, hcell]

/-- STS's address lies in the data region, so its write leaves the I/O sub-range (R72). -/
theorem memRead_memWrite_stsAddr {x : BitVec 8} {b : Nat} (v : Word) (hb : b < 256) :
    memRead (memWrite (stsAddr x) v s) b = memRead s b := by
  have hcell : b ≠ stsAddr x := by simp only [stsAddr, Config.dataBase]; omega
  exact memRead_memWrite_other s v hcell

/-! ### Program memory -/

/-- No effect writes program memory (R62). -/
@[simp] theorem Effect.run_pm (e : Effect) (s : State) : (e.run s).pm = s.pm := by
  cases e with
  | out a rs => exact outWrite_pm s _ _
  | store a rs => exact memWrite_pm s _ _
  | branch taken target => rcases branchIf_cases s (taken s.flagS s.flagZ) target with ⟨_, h⟩ | ⟨_, h⟩ <;> simp [run, h]
  | reti => rw [run, setFlagI_pm, restoreContext_pm]
  | skip | load | alu | compare | call | ret | push | pop | setI => rfl

/-! ### Push and Pop -/

theorem pushed_push (st : Stack) (v : Word) : pushed v st (st.push v) := by
  refine ⟨Stack.push_full v, fun hroom => ⟨Stack.push_sp v, ?_, fun a ha => ?_⟩⟩
  · rw [Stack.push_lookup, if_pos ⟨hroom, rfl⟩]
  · rw [Stack.push_lookup, if_neg fun h => ha h.2]

theorem popped_pop (st : Stack) : popped st.pop.1 st st.pop.2 := by
  refine ⟨fun hempty => by simp [Stack.pop_empty hempty], fun hne => ?_⟩
  have hlt : st.sp.val < 1024 := Nat.lt_of_le_of_ne st.sp_le hne
  refine ⟨by rw [Stack.pop_value, if_pos hlt], ?_, Stack.pop_cells st⟩
  rw [Stack.pop_sp, Nat.min_eq_left hlt]

/-- A run of pops one longer is the run with one more pop behind it. -/
theorem Stack.popMany_succ_last (k : Nat) : ∀ st : Stack, Stack.popMany (k + 1) st =
    ((Stack.popMany k st).1 ++ [(Stack.popMany k st).2.pop.1], (Stack.popMany k st).2.pop.2) := by
  induction k with
  | zero => intro st; rfl
  | succ k ih =>
    intro st
    rw [Stack.popMany, ih st.pop.2]
    rfl

/-- A run of pushes leaves the word pushed just before it where it was: the cell at the pointer it started from. -/
theorem Stack.pushAll_lookup_top (ws : List Word) (st : Stack) :
    Memory.lookup (Stack.pushAll ws st).cells st.sp.val = Memory.lookup st.cells st.sp.val := by
  rw [Stack.pushAll_lookup, if_neg fun h => Nat.lt_irrefl _ h.1]

/-- As many pops as there were pushes put the pointer back, if every push found room (R79). -/
theorem Stack.popMany_pushAll_sp {ws : List Word} {st : Stack} (h : ws.length ≤ st.sp.val) :
    (Stack.popMany ws.length (Stack.pushAll ws st)).2.sp = st.sp := by
  have := st.sp_le
  apply Fin.ext
  rw [Stack.popMany_sp, Stack.pushAll_sp]
  omega

/-- Last in, first out: the pops that undo the later pushes come first, the first word pushed is the last to be popped (R79). -/
theorem Stack.popMany_pushAll (ws : List Word) : ∀ {st : Stack}, ws.length ≤ st.sp.val →
    (Stack.popMany ws.length (Stack.pushAll ws st)).1 = ws.reverse := by
  induction ws with
  | nil => intro st _; rfl
  | cons w ws ih =>
    intro st h
    have hle := st.sp_le
    rw [List.length_cons] at h
    have hsp : (st.push w).sp.val = st.sp.val - 1 := Stack.push_sp w
    have hroom : ws.length ≤ (st.push w).sp.val := by omega
    have hlast : (Stack.popMany ws.length (Stack.pushAll ws (st.push w))).2.pop.1 = w := by
      rw [Stack.pop_value, Stack.popMany_pushAll_sp hroom, if_pos (by omega), Stack.popMany_cells,
        Stack.pushAll_lookup_top, hsp, Stack.push_lookup, if_pos ⟨by omega, rfl⟩]
    rw [List.length_cons, Stack.pushAll_cons, Stack.popMany_succ_last, ih hroom, hlast, List.reverse_cons]

/-! ### The statements -/

/-- Settles O11: the reset stack is the empty one, and a run of pops answers a run of pushes by induction on the words. -/
theorem stackResetAndLifo : Obligations.StackResetAndLifo :=
  ⟨fun _ => ⟨Stack.empty_sp, Memory.lookup_nil⟩,
    fun ws _ h => ⟨Stack.popMany_pushAll ws h, Stack.popMany_pushAll_sp h⟩⟩

/-- Settles O49: a step is a reset, or an Operation with its boundary step, from a machine with the same program. -/
theorem programMemoryNeverWritten : Obligations.ProgramMemoryNeverWritten := by
  intro s t h
  rcases step_cases h with ⟨u, hpm, rfl⟩ | ⟨i, u, v, ⟨_, _, _, hpm, _, _⟩, _, _, hv, rfl⟩
  · exact hpm
  · calc (boundary (v.setExecState .fetch)).pm = v.pm := boundary_pm _
      _ = u.pm := by rw [exec_next_iff.1 hv, Effect.run_pm]
      _ = s.pm := hpm

/-- Settles O8, from the write's frame and the reads on both sides of 512. -/
theorem dataMemoryContract : Obligations.DataMemoryContract := fun s a v =>
  ⟨fun h => ⟨memRead_below h, memRead_memWrite_same s v h⟩,
    fun h => ⟨memRead_beyond h, memWrite_beyond v h⟩, onlyCell_memWrite s a v⟩

/-- Settles O9: beyond 256 the word is NOP_WORD. -/
theorem programFetchContract : Obligations.ProgramFetchContract := by
  refine fun s a => ⟨fun h => if_pos h, fun h => ?_⟩
  rw [pmRead_beyond h]
  exact ⟨rfl, decode_nopWord⟩

/-- Settles O10, the two halves apart. -/
theorem stackPushPopContract : Obligations.StackPushPopContract :=
  fun st v => ⟨pushed_push st v, popped_pop st⟩

/-- Settles O17: OUT's address is below 256, STS's at or above it. -/
theorem storesKeepToTheirHalf : Obligations.StoresKeepToTheirHalf := fun s a rs =>
  ⟨⟨_, exec_eq_run (.out a rs) s, fun _ => memRead_outWrite_data (s.reg rs) a.isLt⟩,
    ⟨_, exec_eq_run (.sts a rs) s, fun _ => memRead_memWrite_stsAddr (s.reg rs)⟩⟩

end Sys2Proof.Machine
end

section
/-! Decoder and encoder against the operand forms (30_encoding.md R103 to R113): which bits of a word its form reads, and the
canonical word that keeps these bits and has zero in all others. `decodeFields_of_le` says once, opcode by opcode, that the
decoder and the encoder follow the table of the forms; the statements about words use that table only. -/

namespace Sys2Proof

/-! ### What a form reads of its two operand fields -/

/-- What an operand form reads of one operand field: nothing, the low five bits that select a register, or all of it (R105). -/
inductive FieldUse where
  | ignored
  | register
  | whole

/-- The field with zero in the bits that are not read. -/
def FieldUse.canonical {n : Nat} : FieldUse → BitVec n → BitVec n
  | .ignored, _ => 0
  | .register, x => regField n (reg x)
  | .whole, x => x

/-- The column op1 of the table of R105. -/
def Form.op1Use : Form → FieldUse
  | .N => .ignored
  | .R | .RI | .RR | .RA => .register
  | .AR | .T => .whole

/-- The column op2 of the table of R105. -/
def Form.op2Use : Form → FieldUse
  | .N | .R | .T => .ignored
  | .RR | .AR => .register
  | .RI | .RA => .whole

theorem canonical_ignored_eq_self {n : Nat} (x : BitVec n) : FieldUse.ignored.canonical x = x ↔ x = 0 := eq_comm

theorem canonical_whole {n : Nat} (x : BitVec n) : FieldUse.whole.canonical x = x := rfl

/-- Two fields of one register are one canonical field (R103). -/
theorem canonical_register_congr {n : Nat} {x y : BitVec n} (h : Machine.regOf x = Machine.regOf y) :
    FieldUse.register.canonical x = FieldUse.register.canonical y := by
  rw [FieldUse.canonical, FieldUse.canonical, reg_eq_regOf, reg_eq_regOf, h]

/-- A register field is canonical when it is below NREGS, its upper bits zero (R112). -/
theorem canonical_register_eq_self {n : Nat} (hn : 5 ≤ n) (x : BitVec n) :
    FieldUse.register.canonical x = x ↔ x.toNat < 32 := by
  rw [← BitVec.toNat_inj, FieldUse.canonical, Laws.regField_toNat hn, reg_eq_regOf]
  exact Nat.mod_eq_iff_lt (by decide)

/-! ### The opcode map -/

/-- An opcode of the map: its words decode, and the instruction's canonical word keeps what the form reads (R105, R106). -/
theorem decodeFields_of_le {c : BitVec 8} (h : c.toNat ≤ 0x25) (a : BitVec 8) (b : BitVec 16) :
    ∃ f i, formOf c = some f ∧ decodeFields c a b = .ok i ∧
      encode i = packFields c (f.op1Use.canonical a) (f.op2Use.canonical b) := by
  obtain ⟨k, rfl⟩ : ∃ k : Fin 38, c = BitVec.ofNat 8 k.val :=
    ⟨⟨c.toNat, by omega⟩, (BitVec.ofNat_toNat 8 c).symm⟩
  fin_cases k <;> exact ⟨_, _, rfl, rfl, rfl⟩

/-- An opcode beyond the map is rejected by name, whatever the operand fields hold (R107). -/
theorem decodeFields_of_gt {c : BitVec 8} (h : 0x25 < c.toNat) (a : BitVec 8) (b : BitVec 16) :
    decodeFields c a b = .error (.unrecognisedOpcode c) := by
  unfold decodeFields
  split
  case h_39 => rfl
  all_goals omega

/-- No opcode beyond the map has a form. -/
theorem formOf_eq_none {c : BitVec 8} (h : 0x25 < c.toNat) : formOf c = none := by
  unfold formOf
  split
  case h_39 => rfl
  all_goals omega

theorem opcode_le_of_formOf {c : BitVec 8} {f : Form} (h : formOf c = some f) : c.toNat ≤ 0x25 := by
  by_contra hgt
  rw [formOf_eq_none (Nat.lt_of_not_le hgt)] at h
  cases h

/-- Only an opcode of the map decodes, and its instruction's canonical word keeps what the form reads. -/
theorem encode_of_decodeFields {c a : BitVec 8} {b : BitVec 16} {i : Instr} (hi : decodeFields c a b = .ok i) :
    ∃ f, formOf c = some f ∧ encode i = packFields c (f.op1Use.canonical a) (f.op2Use.canonical b) := by
  obtain hc | hc := Nat.lt_or_ge 0x25 c.toNat
  · rw [decodeFields_of_gt hc] at hi
    cases hi
  · obtain ⟨f, j, hf, hj, he⟩ := decodeFields_of_le hc a b
    cases hi.symm.trans hj
    exact ⟨f, hf, he⟩

/-! ### The round trips -/

/-- A canonical word decodes to its instruction: a register number is read back from its field, any other operand is its field
(R109). -/
theorem decode_encode (i : Instr) : decode (encode i) = .ok i := by
  have h8 (r : Reg) : reg (regField 8 r) = r := Laws.reg_regField (by decide) r
  have h16 (r : Reg) : reg (regField 16 r) = r := Laws.reg_regField (by decide) r
  cases i with
  | nop | ret | reti | sei | cli => rfl
  | clr r | inc r | dec r | push r | pop r | lsl r | lsr r | ldi r _ | ori r _ | andi r _ | xori r _ | addi r _ | subi r _
  | cpi r _ | in_ r _ | lds r _ =>
    conv_rhs => rw [← h8 r]
    exact decode_packFields _ _ _
  | mov d s | orr d s | andr d s | xorr d s | add d s | sub d s | cp d s =>
    conv_rhs => rw [← h8 d, ← h16 s]
    exact decode_packFields _ _ _
  | out _ s | sts _ s =>
    conv_rhs => rw [← h16 s]
    exact decode_packFields _ _ _
  | jmp | breq | brne | brge | brgt | brle | brlt | call => exact decode_packFields _ _ _

/-- Fields that agree in what the form reads decode alike, since their instructions have one canonical word (R108). -/
theorem decodeFields_congr {c a a' : BitVec 8} {b b' : BitVec 16} {f : Form} (hf : formOf c = some f)
    (ha : f.op1Use.canonical a = f.op1Use.canonical a') (hb : f.op2Use.canonical b = f.op2Use.canonical b') :
    decodeFields c a b = decodeFields c a' b' := by
  obtain ⟨g, i, hg, hi, hwi⟩ := decodeFields_of_le (opcode_le_of_formOf hf) a b
  obtain ⟨g', j, hg', hj, hwj⟩ := decodeFields_of_le (opcode_le_of_formOf hf) a' b'
  cases hf.symm.trans hg
  cases hf.symm.trans hg'
  calc decodeFields c a b = decode (encode i) := by rw [hi, decode_encode]
    _ = decode (encode j) := by rw [hwi, hwj, ha, hb]
    _ = decodeFields c a' b' := by rw [hj, decode_encode]

theorem packFields_inj {c a a' : BitVec 8} {b b' : BitVec 16} :
    packFields c a b = packFields c a' b' ↔ a = a' ∧ b = b' := by
  constructor
  · intro h
    obtain ⟨_, ha, hb⟩ := Laws.packFields_fields c a b
    obtain ⟨_, ha', hb'⟩ := Laws.packFields_fields c a' b'
    rw [h] at ha hb
    exact ⟨ha.symm.trans ha', hb.symm.trans hb'⟩
  · rintro ⟨rfl, rfl⟩
    rfl

/-- The checks of R112 on a recognised opcode: both fields hold nothing that the form does not read. -/
theorem wordWellFormed_iff {c a : BitVec 8} {b : BitVec 16} {f : Form} (hf : formOf c = some f) :
    wordWellFormed (packFields c a b) = true ↔ f.op1Use.canonical a = a ∧ f.op2Use.canonical b = b := by
  have hc := opcode_le_of_formOf hf
  have h8 := canonical_register_eq_self (show 5 ≤ 8 by decide) a
  have h16 := canonical_register_eq_self (show 5 ≤ 16 by decide) b
  rw [Laws.wordWellFormed_pack, hf]
  cases f <;> simp [hc, h8, h16, Form.op1Use, Form.op2Use, canonical_ignored_eq_self, canonical_whole, and_comm]

/-- Encoding gives back the word that was decoded exactly when the word holds nothing its form does not read (R109). -/
theorem encode_eq_iff_wordWellFormed {w : InstrWord} {i : Instr} (hi : decode w = .ok i) :
    encode i = w ↔ wordWellFormed w = true := by
  obtain ⟨c, a, b, rfl⟩ : ∃ c a b, packFields c a b = w := ⟨_, _, _, packFields_self w⟩
  rw [decode_packFields] at hi
  obtain ⟨f, hf, he⟩ := encode_of_decodeFields hi
  rw [he, wordWellFormed_iff hf, packFields_inj]

/-! ### The decoder on a word as a number -/

theorem opcField_toNat (w : InstrWord) : (opcField w).toNat = w.toNat / 2 ^ 24 := by
  have := w.isLt
  simp only [opcField, BitVec.extractLsb'_toNat, Nat.shiftRight_eq_div_pow]
  omega

theorem decode_of_opcode_le {w : InstrWord} (h : (opcField w).toNat ≤ 0x25) : ∃ i, decode w = .ok i := by
  obtain ⟨_, i, _, hi, _⟩ := decodeFields_of_le h (op1Field w) (op2Field w)
  exact ⟨i, hi⟩

theorem decode_of_lt {w : InstrWord} (h : w.toNat < 0x26000000) : ∃ i, decode w = .ok i :=
  decode_of_opcode_le (by rw [opcField_toNat]; omega)

theorem decode_of_ge {w : InstrWord} (h : 0x26000000 ≤ w.toNat) :
    decode w = .error (.unrecognisedOpcode (w.extractLsb' 24 8)) :=
  decodeFields_of_gt (by rw [opcField_toNat]; omega) _ _

theorem opcode_le_of_wordWellFormed {w : InstrWord} (h : wordWellFormed w = true) : (opcField w).toNat ≤ 0x25 := by
  rw [wordWellFormed, Bool.and_eq_true, Bool.and_eq_true] at h
  obtain ⟨⟨hopc, _⟩, _⟩ := h
  exact of_decide_eq_true hopc

/-! ### The statements -/

/-- Settles O1: the canonical word keeps what the form reads, so it is the word itself when the word holds no more. -/
theorem decodeEncodeAgree : Obligations.DecodeEncodeAgree :=
  ⟨decode_encode, fun _ _ => encode_eq_iff_wordWellFormed⟩

/-- Settles O2: a well-formed word is the canonical word of what it decodes to. -/
theorem wellFormedWordsAreCanonicalWords : Obligations.WellFormedWordsAreCanonicalWords := by
  intro w
  constructor
  · intro hw
    obtain ⟨i, hi⟩ := decode_of_opcode_le (opcode_le_of_wordWellFormed hw)
    exact ⟨i, (encode_eq_iff_wordWellFormed hi).2 hw⟩
  · rintro ⟨i, rfl⟩
    exact (encode_eq_iff_wordWellFormed (decode_encode i)).1 rfl

/-- Settles O3: a field that is ignored, or names the same register, is the same canonical field. -/
theorem decoderTotalAndIgnoresUnusedBits : Obligations.DecoderTotalAndIgnoresUnusedBits := by
  refine ⟨fun w => ⟨decode_of_lt, decode_of_ge⟩, fun c a a' b b' => ?_⟩
  simp only [wordOf_eq, decode_packFields]
  refine ⟨fun hN => ?_, fun hT => ?_, fun hR ha => ?_, fun h ha => ?_, fun hRR ha hb => ?_, fun hAR hb => ?_⟩
  · exact decodeFields_congr hN rfl rfl
  · exact decodeFields_congr hT rfl rfl
  · exact decodeFields_congr hR (canonical_register_congr ha) rfl
  · rcases h with hRI | hRA
    · exact decodeFields_congr hRI (canonical_register_congr ha) rfl
    · exact decodeFields_congr hRA (canonical_register_congr ha) rfl
  · exact decodeFields_congr hRR (canonical_register_congr ha) (canonical_register_congr hb)
  · exact decodeFields_congr hAR rfl (canonical_register_congr hb)

/-- Settles O4: each worked word computes, and totality below the smallest illegal word is O3's. -/
theorem workedEncodingsDecode : Obligations.WorkedEncodingsDecode :=
  ⟨rfl, rfl, rfl, rfl, rfl, rfl, rfl, rfl, rfl, rfl, rfl, rfl, rfl, rfl, rfl, rfl, rfl, rfl, rfl, fun _ => decode_of_lt⟩

end Sys2Proof
end

section
/-! The ALU at every width (40_alu.md R131 to R141): its flags from its result, V as the signed result being out of range, S of a
subtraction as the signed order, and so the six branches after a compare as signed comparisons (44_control_transfer.md R222 to
R227). -/

namespace Sys2Proof.Machine

/-! ### N, Z and the bitwise operations -/

section
variable {w : Nat} (a b : BitVec w)

/-- N is the sign bit of the result (R136). -/
theorem alu_negative (op : AluOp) : (alu op a b).2.n = (alu op a b).1.msb := by cases op <;> rfl

/-- Z is a zero result (R136). -/
theorem alu_zero_iff (op : AluOp) : (alu op a b).2.z = true ↔ (alu op a b).1 = 0 := by cases op <;> exact beq_iff_eq

/-- OR, AND and XOR clear V and C (R131 to R133). -/
theorem alu_bitwise_clears {op : AluOp} (h : op = .bor ∨ op = .band ∨ op = .bxor) :
    (alu op a b).2.v = false ∧ (alu op a b).2.c = false := by
  rcases h with rfl | rfl | rfl <;> exact ⟨rfl, rfl⟩

/-! ### V of ADD and SUB: by the sign bits, and by the signed range -/

theorem aluAdd_overflow_iff_msb : (aluAdd a b).2.v = true ↔ a.msb = b.msb ∧ (aluAdd a b).1.msb ≠ a.msb := by
  simp [aluAdd_overflow]

theorem aluSub_overflow_iff_msb : (aluSub a b).2.v = true ↔ a.msb ≠ b.msb ∧ (aluSub a b).1.msb = b.msb := by
  simp [aluSub_overflow]

/-- ADD's V is the library's signed overflow. -/
theorem aluAdd_overflow_eq_saddOverflow : (aluAdd a b).2.v = a.saddOverflow b := by
  rw [aluAdd_overflow, BitVec.saddOverflow_eq]
  rfl

/-- SUB's V is the library's signed overflow. -/
theorem aluSub_overflow_eq_ssubOverflow : (aluSub a b).2.v = a.ssubOverflow b := by
  rw [aluSub_overflow, BitVec.ssubOverflow_eq]
  cases a.msb <;> cases b.msb <;> simp

/-- ADD's V is the signed sum out of range (R140). -/
theorem aluAdd_overflow_iff_range :
    (aluAdd a b).2.v = true ↔ a.toInt + b.toInt < -(2 ^ (w - 1)) ∨ 2 ^ (w - 1) - 1 < a.toInt + b.toInt := by
  simp only [aluAdd_overflow_eq_saddOverflow, BitVec.saddOverflow, Bool.or_eq_true, decide_eq_true_eq, ge_iff_le]
  omega

/-- SUB's V is the signed difference out of range (R140). -/
theorem aluSub_overflow_iff_range :
    (aluSub a b).2.v = true ↔ a.toInt - b.toInt < -(2 ^ (w - 1)) ∨ 2 ^ (w - 1) - 1 < a.toInt - b.toInt := by
  simp only [aluSub_overflow_eq_ssubOverflow, BitVec.ssubOverflow, Bool.or_eq_true, decide_eq_true_eq, ge_iff_le]
  omega

/-- ADD's V as a formula: the result's sign differs from both operands' (R140). -/
theorem aluAdd_overflow_formula :
    (aluAdd a b).2.v = ((a.msb ^^ (aluAdd a b).1.msb) && (b.msb ^^ (aluAdd a b).1.msb)) := by
  rw [aluAdd_overflow, aluAdd_result]
  cases a.msb <;> cases b.msb <;> simp

/-- SUB's V as a formula: the operands' signs differ and the result has b's (R140). -/
theorem aluSub_overflow_formula_subtrahend : (aluSub a b).2.v = ((a.msb ^^ b.msb) && !((aluSub a b).1.msb ^^ b.msb)) := by
  rw [aluSub_overflow, aluSub_result]
  cases a.msb <;> cases b.msb <;> simp

/-- SUB's V as a formula: the operands' signs differ and the result has not a's (R140). -/
theorem aluSub_overflow_formula_minuend : (aluSub a b).2.v = ((a.msb ^^ b.msb) && (a.msb ^^ (aluSub a b).1.msb)) := by
  rw [aluSub_overflow, aluSub_result]
  cases a.msb <;> cases b.msb <;> simp

/-! ### Z and S of SUB: equality and the signed order (R141) -/

theorem aluSub_zero_iff : (aluSub a b).2.z = true ↔ a = b := by
  rw [show (aluSub a b).2.z = true ↔ (aluSub a b).1 = 0 from alu_zero_iff a b .sub, aluSub_result]
  exact sub_eq_zero

/-- Operands of different signs are ordered by the sign of the first. -/
theorem toInt_lt_iff_of_msb_ne {a b : BitVec w} (h : a.msb ≠ b.msb) : a.toInt < b.toInt ↔ a.msb = true := by
  rw [BitVec.msb_eq_toInt, BitVec.msb_eq_toInt, Ne, decide_eq_decide] at h
  rw [BitVec.msb_eq_toInt, decide_eq_true_eq]
  omega

/-- S after SUB is the signed order: on overflow the operands' signs decide, else the difference's sign is the true one. -/
theorem aluSub_sign_iff : (aluSub a b).2.s = true ↔ a.toInt < b.toInt := by
  have hS : (aluSub a b).2.s = ((aluSub a b).1.msb ^^ (aluSub a b).2.v) := alu_sign .sub a b
  rw [hS]
  by_cases hV : (aluSub a b).2.v = true
  · obtain ⟨hne, hr⟩ := (aluSub_overflow_iff_msb a b).1 hV
    rw [toInt_lt_iff_of_msb_ne hne, hV, hr, Bool.xor_true, Bool.eq_not.2 hne]
  · have hD := BitVec.toInt_sub_of_not_ssubOverflow (aluSub_overflow_eq_ssubOverflow a b ▸ hV)
    rw [Bool.eq_false_iff.2 hV, Bool.xor_false, aluSub_result, BitVec.msb_eq_toInt, decide_eq_true_eq, hD, sub_neg]

end

/-! ### A compare and the branch that reads its flags -/

/-- CP and CPI are the compare with their operand (R203, R204). -/
theorem exec_compare {s : State} {rd : Reg} {i : Instr} {b : Word}
    (h : (∃ rs, i = .cp rd rs ∧ b = s.reg rs) ∨ ∃ k : BitVec 16, i = .cpi rd k ∧ b = BitVec.ofNat 32 k.toNat) :
    exec i s = .next (aluCompare rd b s) := by
  rcases h with ⟨rs, rfl, rfl⟩ | ⟨k, rfl, rfl⟩
  · rfl
  · rw [← immOperand_eq]
    rfl

/-- Z after a compare is equality. -/
theorem aluCompare_flagZ_iff (s : State) (rd : Reg) (b : Word) : (aluCompare rd b s).flagZ = true ↔ s.reg rd = b := by
  rw [aluCompare, setFlagsSNZVC_flagZ]
  exact aluSub_zero_iff _ _

/-- S after a compare is the signed order. -/
theorem aluCompare_flagS_iff (s : State) (rd : Reg) (b : Word) :
    (aluCompare rd b s).flagS = true ↔ (s.reg rd).toInt < b.toInt := by
  rw [aluCompare, setFlagsSNZVC_flagS]
  exact aluSub_sign_iff _ _

/-- A branch whose flag predicate says P goes to its target exactly when P holds (R220). -/
theorem exec_branch_pc {i : Instr} {t : State} {x : BitVec 8} {c : Bool} {p : Word} {P : Prop} [Decidable P]
    (hi : exec i t = .next (branchIf c x t)) (hp : t.pc = p) (hc : c = true ↔ P) :
    ∃ u, exec i t = .next u ∧ u.pc = if P then BitVec.ofNat 32 x.toNat else p := by
  refine ⟨_, hi, ?_⟩
  rw [branchIf_pc, targetOperand_eq, hp]
  exact if_congr hc rfl rfl

/-! ### The statements -/

/-- Settles O5: results and carries by the laws of ADD and SUB, flags by the laws of every operation. -/
theorem aluOperationRules : Obligations.AluOperationRules := by
  intro w a b
  refine ⟨rfl, rfl, rfl, fun _ => alu_bitwise_clears a b, ?_, aluAdd_carry a b, aluAdd_overflow_iff_msb a b, ?_,
    aluSub_borrow a b, aluSub_overflow_iff_msb a b, fun op => ⟨alu_negative a b op, alu_zero_iff a b op, alu_sign op a b⟩⟩
  · exact (congrArg BitVec.toNat (aluAdd_result a b)).trans (BitVec.toNat_add a b)
  · exact (congrArg BitVec.toNat (aluSub_result a b)).trans (BitVec.toNat_sub' a b)

/-- Settles O6: V is the signed overflow, and ADD undoes SUB since both wrap. -/
theorem aluLawsAndIdentities : Obligations.AluLawsAndIdentities := by
  intro w a b
  have hundo : (aluAdd (aluSub a b).1 b).1 = a := by rw [aluAdd_result, aluSub_result, BitVec.sub_add_cancel]
  have hcarry : (aluAdd a b).2.c = true ↔ 2 ^ w - 1 < a.toNat + b.toNat := by
    have := Nat.two_pow_pos w
    rw [aluAdd_carry]
    omega
  exact ⟨fun op => ⟨alu_sign op a b, alu_zero_iff a b op⟩, fun _ => alu_bitwise_clears a b, hundo, hcarry,
    aluAdd_overflow_iff_range a b, aluAdd_overflow_formula a b, aluSub_borrow a b, aluSub_overflow_iff_range a b,
    aluSub_overflow_formula_subtrahend a b, aluSub_overflow_formula_minuend a b, aluAdd_result a b, aluSub_result a b⟩

/-- Settles O7: each branch's predicate over S and Z is its signed comparison of the compared operands. -/
theorem compareThenBranchIsSigned : Obligations.CompareThenBranchIsSigned := by
  refine ⟨fun w a b => ⟨aluSub_zero_iff a b, aluSub_borrow a b, aluSub_sign_iff a b⟩, fun s rd i b h => ?_⟩
  refine ⟨aluCompare rd b s, exec_compare h, fun x => ?_⟩
  have hZ := aluCompare_flagZ_iff s rd b
  have hS := aluCompare_flagS_iff s rd b
  have hEq : s.reg rd = b ↔ (s.reg rd).toInt = b.toInt := BitVec.toInt_inj.symm
  have hpc : (aluCompare rd b s).pc = s.pc := rfl
  refine ⟨exec_branch_pc rfl hpc hZ, exec_branch_pc rfl hpc ?brne, exec_branch_pc rfl hpc ?brge,
    exec_branch_pc rfl hpc ?brgt, exec_branch_pc rfl hpc ?brle, exec_branch_pc rfl hpc hS⟩
  case brne => rw [Bool.not_eq_true', ← Bool.not_eq_true, hZ]
  case brge => rw [Bool.not_eq_true', ← Bool.not_eq_true, hS, not_lt]
  case brgt =>
    rw [Bool.and_eq_true, Bool.not_eq_true', Bool.not_eq_true', ← Bool.not_eq_true, ← Bool.not_eq_true, hS, hZ, hEq]
    omega
  case brle =>
    rw [Bool.or_eq_true, hS, hZ, hEq]
    omega

end Sys2Proof.Machine
end

section
/-! The cycle (41_control_cycle.md R150 to R162): the clock edges that remain of the instruction in progress, from each STATE, and
the FETCH and DECODE ticks field by field. -/

namespace Sys2Proof.Machine

variable {s : State}

/-! ### Every step ends, at FETCH -/

/-- The EXECUTE tick leaves STATE at FETCH: the boundary step does not touch it, and neither path stops (R154, R157). -/
theorem executeTick_ends_at_fetch (s : State) : ∃ t, executeTick s = .next t ∧ t.execState = .fetch := by
  cases hd : decodeFields s.opc s.op1 s.op2 with
  | ok i => exact ⟨_, executeTick_of_ok hd, boundary_execState _⟩
  | error e => exact ⟨_, executeTick_of_error hd, rfl⟩

/-- The clock edges of the instruction in progress that are still to come (R160). -/
def ExecState.edgesLeft : ExecState → Nat
  | .fetch => 3
  | .decode => 2
  | .execute => 1

/-- Edges enough for the instruction in progress end at FETCH: one fewer is left after FETCH and after DECODE, and an EXECUTE tick
or a reset ends the run there. -/
theorem runEdges_ends_at_fetch (k : Nat) :
    ∀ s : State, s.execState.edgesLeft ≤ k → ∃ t, runEdges k s = .next t ∧ t.execState = .fetch := by
  induction k with
  | zero =>
    intro s hk
    cases he : s.execState <;> simp [he, ExecState.edgesLeft] at hk
  | succ k ih =>
    intro s hk
    cases hr : rstAsserted s with
    | true => exact ⟨_, runEdges_rst s k hr, rfl⟩
    | false =>
      cases he : s.execState with
      | fetch =>
        rw [he] at hk
        rw [runEdges_fetch s k hr he]
        exact ih _ (Nat.le_of_succ_le_succ hk)
      | decode =>
        rw [he] at hk
        rw [runEdges_decode s k hr he]
        exact ih _ (Nat.le_of_succ_le_succ hk)
      | execute =>
        rw [runEdges_execute s k hr he]
        exact executeTick_ends_at_fetch (presentInputs s)

theorem ExecState.edgesLeft_le_three (e : ExecState) : e.edgesLeft ≤ 3 := by
  cases e <;> decide

/-! ### The edges one by one, without rst -/

/-- From EXECUTE one edge is the run. -/
theorem runEdges_one (k : Nat) (he : s.execState = .execute) (h : noRst 1 s) : runEdges (k + 1) s = clockEdge s := by
  have hr := rstAsserted_of_noRst h
  rw [runEdges_execute s k hr he, clockEdge_execute s hr he]

/-- From DECODE two edges are the run. -/
theorem runEdges_two (k : Nat) (he : s.execState = .decode) (h : noRst 2 s) :
    ∃ t, clockEdge s = .next t ∧ runEdges (k + 2) s = clockEdge t := by
  have hr := rstAsserted_of_noRst h
  have hnext : noRst 1 (decodeTick (presentInputs s)) := noRst_presentInputs h
  exact ⟨_, clockEdge_decode s hr he, (runEdges_decode s (k + 1) hr he).trans (runEdges_one k rfl hnext)⟩

/-- From FETCH three edges are the run. -/
theorem runEdges_three (k : Nat) (he : s.execState = .fetch) (h : noRst 3 s) :
    ∃ t u, clockEdge s = .next t ∧ clockEdge t = .next u ∧ runEdges (k + 3) s = clockEdge u := by
  have hr := rstAsserted_of_noRst h
  have hnext : noRst 2 (fetchTick (presentInputs s)) := noRst_presentInputs h
  obtain ⟨u, hu, hrun⟩ := runEdges_two k rfl hnext
  exact ⟨_, u, clockEdge_fetch s hr he, hu, (runEdges_fetch s (k + 2) hr he).trans hrun⟩

/-! ### The FETCH and the DECODE tick -/

theorem tick_fetch (he : s.execState = .fetch) : tick s = .next (fetchTick s) := by
  simp only [tick, he]

theorem tick_decode (he : s.execState = .decode) : tick s = .next (decodeTick s) := by
  simp only [tick, he]

/-- A word is the sum of its three fields at their places (R101). -/
theorem toNat_eq_fields (w : InstrWord) :
    w.toNat = (opcField w).toNat * 2 ^ 24 + (op1Field w).toNat * 2 ^ 16 + (op2Field w).toNat := by
  have hop1 : (op1Field w).toNat = w.toNat / 2 ^ 16 % 2 ^ 8 := by
    rw [op1Field, BitVec.extractLsb'_toNat, Nat.shiftRight_eq_div_pow]
  have hop2 : (op2Field w).toNat = w.toNat % 2 ^ 16 := by
    rw [op2Field, BitVec.extractLsb'_toNat, Nat.shiftRight_zero]
  rw [opcField_toNat, hop1, hop2]
  omega

/-! ### The statements -/

/-- Settles O45: three edges are enough from every STATE. -/
theorem stepEndsInFetch : Obligations.StepEndsInFetch :=
  fun s => runEdges_ends_at_fetch 3 s s.execState.edgesLeft_le_three

/-- Settles O39: the next state is the one the instruction's effect leaves. -/
theorem everyInstructionCompletes : Obligations.EveryInstructionCompletes :=
  fun i s => ⟨_, exec_eq_run i s⟩

/-- Settles O41: the latches at EXECUTE hold the fields of the word at pc. -/
theorem stepRunsDecodedInstruction : Obligations.StepRunsDecodedInstruction :=
  fun s i he hr hd => ⟨_, exec_eq_run i (atExecute s), step_of_decode he hr hd⟩

/-- Settles O42: the next state is the FETCH or the DECODE tick's, whose fields are read off. -/
theorem fetchAndDecodeTicks : Obligations.FetchAndDecodeTicks := by
  refine fun s => ⟨fun he => ⟨fetchTick s, tick_fetch he, ?_⟩, fun he => ⟨decodeTick s, tick_decode he, ?_⟩⟩
  · exact ⟨rfl, rfl, BitVec.toNat_add s.pc 1, rfl, fun _ => rfl, rfl, rfl, rfl, rfl, rfl, rfl, fun _ => rfl, rfl, rfl, rfl⟩
  · exact ⟨toNat_eq_fields s.ir, rfl, rfl, rfl, rfl, fun _ => rfl, rfl, rfl, rfl, fun _ => rfl, rfl, rfl, rfl⟩

/-- Settles O44: each STATE's remaining edges, counted within the three of a step. -/
theorem stepIsTheRemainingTicks : Obligations.StepIsTheRemainingTicks :=
  fun _ => ⟨runEdges_one 2, runEdges_two 1, runEdges_three 0⟩

/-- Settles O46: a reset edge ends the run of edges. -/
theorem resetInputOverridesTick : Obligations.ResetInputOverridesTick :=
  fun s h => ⟨clockEdge_rst s h, runEdges_rst s 2 h⟩

end Sys2Proof.Machine
end

section
/-! Data movement and memory transfer (42_data_transfer.md R169 to R177). LDI, MOV, CLR, IN and LDS are one effect, a load of one
register, and differ in the word's source; OUT and STS are one write of a cell, OUT's toggle included. -/

namespace Sys2Proof.Machine

variable {s : State}

/-! ### The words of an opcode -/

/-- What an opcode's words decode to, with the register operands as the decoder reads them: these are the spec's (R103). -/
theorem decodesTo_of_registers {opcode : Nat} {f : Reg → Reg → BitVec 8 → BitVec 16 → Instr} (hlt : opcode < 256)
    (h : ∀ a b, decodeFields (BitVec.ofNat 8 opcode) a b = .ok (f (reg a) (reg b) a b)) :
    decodesTo opcode fun a b => f (regOf a) (regOf b) a b := by
  refine decodesTo_of (fun a b => ?_) hlt
  rw [h, reg_eq_regOf, reg_eq_regOf]

/-! ### Loads of a register -/

/-- A register write changes nothing but that register. -/
theorem onlyReg_setReg (s : State) (rd : Reg) (v : Word) : onlyReg rd s (s.setReg rd v) :=
  ⟨fun _ => State.reg_setReg_other s v, rfl, rfl, rfl, fun _ => rfl, rfl, rfl, rfl, rfl, rfl, rfl, rfl, rfl, rfl, rfl⟩

/-- An instruction that comes to a load completes, gives its destination the source's word and changes nothing else. -/
theorem exec_load {i : Instr} {rd : Reg} {src : Source} (hi : Effect.ofInstr i = .load rd src) (s : State) :
    ∃ t, exec i s = .next t ∧ t.reg rd = src.read s ∧ onlyReg rd s t := by
  refine ⟨s.setReg rd (src.read s), ?_, State.reg_setReg_same s rd _, onlyReg_setReg s rd _⟩
  rw [exec_eq_run, hi, Effect.run]

/-- A load from data memory gives the cell, and 0 beyond data memory (R64). -/
theorem exec_load_cell {i : Instr} {rd : Reg} {a : Nat} (hi : Effect.ofInstr i = .load rd (.cell a)) (s : State) :
    ∃ t, exec i s = .next t ∧ onlyReg rd s t ∧ (a < 512 → t.reg rd = Memory.lookup s.dm a) ∧
      (512 ≤ a → t.reg rd = 0#32) := by
  obtain ⟨t, ht, hrd, honly⟩ := exec_load hi s
  exact ⟨t, ht, honly, fun h => hrd.trans (memRead_below h), fun h => hrd.trans (memRead_beyond h)⟩

/-! ### OUT's write: the toggle and the plain write -/

/-- At the toggle address OUT is a write of PORT0, XORed with the word (R70). -/
theorem outWrite_toggle (s : State) (v : Word) : outWrite 2 v s = memWrite 1 (memRead s 1 ^^^ v) s := if_pos rfl

/-- At every other address OUT is a plain write (R173). -/
theorem outWrite_plain {a : Nat} (v : Word) (h : a ≠ 2) : outWrite a v s = memWrite a v s := if_neg h

/-! ### The statements -/

/-- Settles O12: three loads, from a constant, a register and the constant 0. -/
theorem ldiMovClrResult : Obligations.LdiMovClrResult := by
  refine ⟨decodesTo_of_registers (f := fun d _ _ k => .ldi d k) (by decide) fun _ _ => rfl,
    decodesTo_of_registers (f := fun d r _ _ => .mov d r) (by decide) fun _ _ => rfl,
    decodesTo_of_registers (f := fun d _ _ _ => .clr d) (by decide) fun _ _ => rfl, fun s rd rs k => ⟨?ldi, ?mov, ?clr⟩⟩
  case ldi =>
    rw [← immOperand_eq]
    exact exec_load (i := .ldi rd k) rfl s
  case mov => exact exec_load (i := .mov rd rs) rfl s
  case clr => exact exec_load (i := .clr rd) rfl s

/-- Settles O13: NOP's effect is none, so behind FETCH and DECODE a step of it is the boundary step. -/
theorem nopStepOnlyAdvancesPc : Obligations.NopStepOnlyAdvancesPc := by
  refine ⟨decodesTo_of_registers (f := fun _ _ _ _ => .nop) (by decide) fun _ _ => rfl, exec_eq_run .nop,
    fun s hs hr hd => ?_⟩
  have hstep := step_of_decode hs hr hd
  rw [show (Effect.ofInstr .nop).run (atExecute s) = atExecute s from rfl] at hstep
  exact ⟨hstep, rfl, fun _ => rfl, rfl, fun _ => rfl, rfl⟩

/-- Settles O14: one write either way, to PORT0 at the toggle address and to the addressed cell elsewhere. -/
theorem outResult : Obligations.OutResult := by
  refine ⟨decodesTo_of_registers (f := fun _ r a _ => .out a r) (by decide) fun _ _ => rfl, fun s a rs => ?_⟩
  refine ⟨outWrite a.toNat (s.reg rs) s, exec_eq_run (.out a rs) s, fun ha => ?toggle, fun ha => ?plain,
    fun _ => ⟨rfl, rfl⟩⟩
  case toggle =>
    rw [ha, show (2#8).toNat = 2 from rfl, outWrite_toggle]
    have hport := memRead_memWrite_same s (a := 1) (memRead s 1 ^^^ s.reg rs) (by decide)
    exact ⟨hport, hport, memRead_memWrite_other s _ (by decide), onlyCell_memWrite s 1 _⟩
  case plain =>
    have hne : a.toNat ≠ 2 := fun h => ha (BitVec.eq_of_toNat_eq h)
    have hin : a.toNat < 512 := by omega
    rw [outWrite_plain _ hne]
    exact ⟨memRead_memWrite_same s _ hin, onlyCell_memWrite s _ _⟩

/-- Settles O15: loads from the cell at op2 and at 256 + op2; the latter is beyond data memory from op2 = 256 on. -/
theorem inLdsResult : Obligations.InLdsResult := by
  refine ⟨decodesTo_of_registers (f := fun d _ _ k => .in_ d k) (by decide) fun _ _ => rfl,
    decodesTo_of_registers (f := fun d _ _ k => .lds d k) (by decide) fun _ _ => rfl, fun s rd k => ⟨?_, ?_⟩⟩
  · exact exec_load_cell (i := .in_ rd k) rfl s
  · obtain ⟨t, ht, honly, hcell, hzero⟩ := exec_load_cell (i := .lds rd k) (a := 256 + k.toNat) rfl s
    exact ⟨t, ht, honly, fun h => hcell (by omega), fun h => hzero (by omega)⟩

/-- Settles O16: eight bits of offset keep the write inside data memory. -/
theorem stsResult : Obligations.StsResult := by
  refine ⟨decodesTo_of_registers (f := fun _ r a _ => .sts a r) (by decide) fun _ _ => rfl, fun s a rs => ?_⟩
  have hin : 256 + a.toNat < 512 := by omega
  exact ⟨memWrite (256 + a.toNat) (s.reg rs) s, exec_eq_run (.sts a rs) s, Nat.le_add_right 256 _, hin,
    memRead_memWrite_same s _ hin, onlyCell_memWrite s _ _⟩

end Sys2Proof.Machine
end

section
/-! Logic, arithmetic, compare and shift (43_logic_arith.md R190 to R206). The twelve ALU instructions that write back are one effect
and differ in the operation and the second operand; CPI and CP are SUB without the write-back; LSL and LSR are loads of a register. -/

namespace Sys2Proof.Machine

/-! ### The statements' flags are those of the ALU operation -/

section
variable {t : State} {a b : Word}

/-- After an ALU operation N and Z are those of its result (R136), S is N xor V. -/
theorem nzs_of_alu {op : AluOp} (h : t.aluFlags = (alu op a b).2) :
    t.flagN = (alu op a b).1.msb ∧ (t.flagZ = true ↔ (alu op a b).1 = 0#32) ∧ t.flagS = (t.flagN ^^ t.flagV) := by
  have hN : t.flagN = (alu op a b).2.n := congrArg AluFlags.n h
  have hZ : t.flagZ = (alu op a b).2.z := congrArg AluFlags.z h
  exact ⟨hN.trans (alu_negative a b op), hZ ▸ alu_zero_iff a b op, signLaw_of_alu h⟩

/-- After a bitwise operation V and C are clear, so S is the result's sign (R131 to R133). -/
theorem flagsAfterBitwise_of_alu {op : AluOp} (hop : op = .bor ∨ op = .band ∨ op = .bxor)
    (h : t.aluFlags = (alu op a b).2) : flagsAfterBitwise (alu op a b).1 t := by
  obtain ⟨hN, hZ, hS⟩ := nzs_of_alu h
  obtain ⟨hv, hc⟩ := alu_bitwise_clears a b hop
  have hV : t.flagV = false := (congrArg AluFlags.v h).trans hv
  have hC : t.flagC = false := (congrArg AluFlags.c h).trans hc
  rw [hV, Bool.xor_false, hN] at hS
  exact ⟨hN, hZ, hS, hV, hC⟩

/-- After ADD C is the carry and V the overflow by the sign bits (R134). -/
theorem flagsAfterAdd_of_alu (h : t.aluFlags = (alu .add a b).2) : flagsAfterAdd a b t := by
  obtain ⟨hN, hZ, hS⟩ := nzs_of_alu h
  have hC : t.flagC = (aluAdd a b).2.c := congrArg AluFlags.c h
  have hV : t.flagV = (aluAdd a b).2.v := congrArg AluFlags.v h
  rw [show (alu .add a b).1 = a + b from aluAdd_result a b] at hN hZ
  refine ⟨hN, hZ, hS, hC ▸ aluAdd_carry a b, ?_⟩
  rw [hV, aluAdd_overflow_iff_msb, aluAdd_result]

/-- After SUB C is the borrow and V the overflow by the sign bits (R135). -/
theorem flagsAfterSub_of_alu (h : t.aluFlags = (alu .sub a b).2) : flagsAfterSub a b t := by
  obtain ⟨hN, hZ, hS⟩ := nzs_of_alu h
  have hC : t.flagC = (aluSub a b).2.c := congrArg AluFlags.c h
  have hV : t.flagV = (aluSub a b).2.v := congrArg AluFlags.v h
  rw [show (alu .sub a b).1 = a - b from aluSub_result a b] at hN hZ
  refine ⟨hN, hZ, hS, hC ▸ aluSub_borrow a b, ?_⟩
  rw [hV, aluSub_overflow_iff_msb, aluSub_result]

end

/-! ### What an ALU operation leaves unchanged -/

/-- Writing the five flags together changes nothing but these, whatever register the frame leaves out. -/
theorem onlyRegAndFlags_setFlagsSNZVC (s : State) (rd : Reg) (f : AluFlags) :
    onlyRegAndFlags rd s (setFlagsSNZVC f s) :=
  ⟨fun _ _ => rfl, setFlagsSNZVC_flagI s f, rfl, rfl, fun _ => rfl, rfl, rfl, rfl, rfl, rfl, rfl, rfl, rfl, rfl, rfl⟩

/-- An ALU operation with write-back changes nothing but its destination and the five flags (R190). -/
theorem onlyRegAndFlags_aluWriteBack (s : State) (op : AluOp) (rd : Reg) (b : Word) :
    onlyRegAndFlags rd s (aluWriteBack op rd b s) :=
  ⟨fun _ => aluWriteBack_reg_other s op b, (aluWriteBack_flags s op rd b).2, rfl, rfl, fun _ => rfl,
    rfl, rfl, rfl, rfl, rfl, rfl, rfl, rfl, rfl, rfl⟩

/-! ### The ALU instructions by their operation -/

section
variable {i : Instr} {rd : Reg} {src : Source} {op : AluOp}

/-- An instruction that comes to an ALU operation completes with its result in the destination and with its flags. -/
theorem exec_alu (hi : Effect.ofInstr i = .alu op rd src) (s : State) :
    ∃ t, exec i s = .next t ∧ t.reg rd = (alu op (s.reg rd) (src.read s)).1 ∧
      t.aluFlags = (alu op (s.reg rd) (src.read s)).2 ∧ onlyRegAndFlags rd s t := by
  refine ⟨aluWriteBack op rd (src.read s) s, ?_, aluWriteBack_reg_same s op rd _, (aluWriteBack_flags s op rd _).1,
    onlyRegAndFlags_aluWriteBack s op rd _⟩
  rw [exec_eq_run, hi, Effect.run]

theorem exec_bitwise (hop : op = .bor ∨ op = .band ∨ op = .bxor) (hi : Effect.ofInstr i = .alu op rd src) (s : State) :
    ∃ t, exec i s = .next t ∧ t.reg rd = (alu op (s.reg rd) (src.read s)).1 ∧
      flagsAfterBitwise (alu op (s.reg rd) (src.read s)).1 t ∧ onlyRegAndFlags rd s t := by
  obtain ⟨t, ht, hrd, hf, honly⟩ := exec_alu hi s
  exact ⟨t, ht, hrd, flagsAfterBitwise_of_alu hop hf, honly⟩

theorem exec_add (hi : Effect.ofInstr i = .alu .add rd src) (s : State) :
    ∃ t, exec i s = .next t ∧ t.reg rd = s.reg rd + src.read s ∧
      flagsAfterAdd (s.reg rd) (src.read s) t ∧ onlyRegAndFlags rd s t := by
  obtain ⟨t, ht, hrd, hf, honly⟩ := exec_alu hi s
  exact ⟨t, ht, hrd.trans (aluAdd_result _ _), flagsAfterAdd_of_alu hf, honly⟩

theorem exec_sub (hi : Effect.ofInstr i = .alu .sub rd src) (s : State) :
    ∃ t, exec i s = .next t ∧ t.reg rd = s.reg rd - src.read s ∧
      flagsAfterSub (s.reg rd) (src.read s) t ∧ onlyRegAndFlags rd s t := by
  obtain ⟨t, ht, hrd, hf, honly⟩ := exec_alu hi s
  exact ⟨t, ht, hrd.trans (aluSub_result _ _), flagsAfterSub_of_alu hf, honly⟩

/-- An instruction that comes to a compare completes with the flags of the subtraction, every register kept, and with the SR
that the subtraction `j` with write-back leaves. -/
theorem exec_compare_as_sub {j : Instr} (hi : Effect.ofInstr i = .compare rd src)
    (hj : Effect.ofInstr j = .alu .sub rd src) (s : State) :
    ∃ t u, exec i s = .next t ∧ flagsAfterSub (s.reg rd) (src.read s) t ∧ t.reg rd = s.reg rd ∧
      onlyRegAndFlags rd s t ∧ exec j s = .next u ∧ t.sr = u.sr := by
  obtain ⟨u, hu, -, huf, -, huI, -⟩ := exec_alu hj s
  obtain ⟨hf, hI⟩ := aluCompare_flags s rd (src.read s)
  refine ⟨aluCompare rd (src.read s) s, u, ?_, flagsAfterSub_of_alu hf, rfl, onlyRegAndFlags_setFlagsSNZVC s rd _, hu,
    sr_ext (hI.trans huI.symm) (hf.trans huf.symm)⟩
  rw [exec_eq_run, hi, Effect.run]

end

/-! ### ANDI's sign, and INC and DEC as their immediate forms -/

/-- A zero-extended constant has no sign bit, and so has no word ANDed with it (R192). -/
theorem msb_and_immOperand (x : Word) (k : BitVec 16) : (x &&& immOperand k).msb = false := by
  have hk : (immOperand k).msb = false := by simp [immOperand, BitVec.msb_setWidth]
  rw [BitVec.msb_and, hk, Bool.and_false]

/-- INC is ADDI with constant 1 (R201). -/
theorem exec_addi_one (rd : Reg) (s : State) : exec (.addi rd 1) s = exec (.inc rd) s := rfl

/-- DEC is SUBI with constant 1 (R202). -/
theorem exec_subi_one (rd : Reg) (s : State) : exec (.subi rd 1) s = exec (.dec rd) s := rfl

/-! ### One place to the left and to the right -/

/-- A shift to the left doubles modulo 2^32: each bit moves up one place, zero comes in (R205). -/
theorem shiftLeft_one (x : Word) : (x <<< 1).toNat = 2 * x.toNat % 2 ^ 32 ∧
    (∀ k, k < 31 → (x <<< 1).getLsbD (k + 1) = x.getLsbD k) ∧ (x <<< 1).getLsbD 0 = false := by
  refine ⟨?_, fun k hk => ?_, ?_⟩
  · rw [BitVec.toNat_shiftLeft, Nat.shiftLeft_eq, Nat.pow_one, Nat.mul_comm]
  · rw [BitVec.getLsbD_shiftLeft, decide_eq_true (by omega : k + 1 < 32), decide_eq_false (by omega : ¬ k + 1 < 1)]
    exact Bool.true_and _
  · rw [BitVec.getLsbD_shiftLeft, decide_eq_true Nat.zero_lt_one, Bool.not_true, Bool.and_false, Bool.false_and]

/-- A shift to the right halves: each bit moves down one place, zero comes in (R206). -/
theorem shiftRight_one (x : Word) : (x >>> 1).toNat = x.toNat / 2 ∧
    (∀ k, k < 31 → (x >>> 1).getLsbD k = x.getLsbD (k + 1)) ∧ (x >>> 1).getLsbD 31 = false := by
  refine ⟨?_, fun k _ => ?_, ?_⟩
  · rw [BitVec.toNat_ushiftRight, Nat.shiftRight_eq_div_pow, Nat.pow_one]
  · rw [BitVec.getLsbD_ushiftRight, Nat.add_comm]
  · rw [BitVec.getLsbD_ushiftRight, BitVec.getLsbD_of_ge x (1 + 31) (Nat.le_refl 32)]

/-! ### The statements -/

/-- Settles O18: three bitwise operations with a constant; after ANDI N and S are the sign of a result that has none. -/
theorem bitwiseImmediateResult : Obligations.BitwiseImmediateResult := by
  refine ⟨decodesTo_of_registers (f := fun d _ _ k => .ori d k) (by decide) fun _ _ => rfl,
    decodesTo_of_registers (f := fun d _ _ k => .andi d k) (by decide) fun _ _ => rfl,
    decodesTo_of_registers (f := fun d _ _ k => .xori d k) (by decide) fun _ _ => rfl, fun s rd k => ?_⟩
  rw [← immOperand_eq]
  refine ⟨exec_bitwise (i := .ori rd k) (.inl rfl) rfl s, ?andi, exec_bitwise (i := .xori rd k) (.inr (.inr rfl)) rfl s⟩
  case andi =>
    obtain ⟨t, ht, hrd, hf, honly⟩ := exec_bitwise (i := .andi rd k) (.inr (.inl rfl)) rfl s
    have hsign := msb_and_immOperand (s.reg rd) k
    have ⟨hN, _, hS, _⟩ := hf
    exact ⟨t, ht, hrd, hf, hN.trans hsign, hS.trans hsign, honly⟩

/-- Settles O19: three bitwise operations with a register, read before the destination is written. -/
theorem bitwiseRegisterResult : Obligations.BitwiseRegisterResult := by
  refine ⟨decodesTo_of_registers (f := fun d r _ _ => .orr d r) (by decide) fun _ _ => rfl,
    decodesTo_of_registers (f := fun d r _ _ => .andr d r) (by decide) fun _ _ => rfl,
    decodesTo_of_registers (f := fun d r _ _ => .xorr d r) (by decide) fun _ _ => rfl, fun s rd rs => ⟨?_, ?_, ?_⟩⟩
  · exact exec_bitwise (i := .orr rd rs) (.inl rfl) rfl s
  · exact exec_bitwise (i := .andr rd rs) (.inr (.inl rfl)) rfl s
  · exact exec_bitwise (i := .xorr rd rs) (.inr (.inr rfl)) rfl s

/-- Settles O20: two additions and two subtractions, with a constant and with a register. -/
theorem addSubResult : Obligations.AddSubResult := by
  refine ⟨decodesTo_of_registers (f := fun d _ _ k => .addi d k) (by decide) fun _ _ => rfl,
    decodesTo_of_registers (f := fun d _ _ k => .subi d k) (by decide) fun _ _ => rfl,
    decodesTo_of_registers (f := fun d r _ _ => .add d r) (by decide) fun _ _ => rfl,
    decodesTo_of_registers (f := fun d r _ _ => .sub d r) (by decide) fun _ _ => rfl, fun s rd rs k => ?_⟩
  rw [← immOperand_eq]
  exact ⟨exec_add (i := .addi rd k) rfl s, exec_add (i := .add rd rs) rfl s, exec_sub (i := .subi rd k) rfl s,
    exec_sub (i := .sub rd rs) rfl s⟩

/-- Settles O21: an addition and a subtraction of 1, each the same state as its immediate form's. -/
theorem incDecResult : Obligations.IncDecResult := by
  refine ⟨decodesTo_of_registers (f := fun d _ _ _ => .inc d) (by decide) fun _ _ => rfl,
    decodesTo_of_registers (f := fun d _ _ _ => .dec d) (by decide) fun _ _ => rfl, fun s rd => ⟨?inc, ?dec⟩⟩
  case inc =>
    obtain ⟨t, ht, hrd, hf, honly⟩ := exec_add (i := .inc rd) rfl s
    exact ⟨t, ht, hrd, hf, honly, (exec_addi_one rd s).trans ht⟩
  case dec =>
    obtain ⟨t, ht, hrd, hf, honly⟩ := exec_sub (i := .dec rd) rfl s
    exact ⟨t, ht, hrd, hf, honly, (exec_subi_one rd s).trans ht⟩

/-- Settles O22: a compare computes what the subtraction with write-back computes, and the flags are all of SR but I. -/
theorem compareResult : Obligations.CompareResult := by
  refine ⟨decodesTo_of_registers (f := fun d _ _ k => .cpi d k) (by decide) fun _ _ => rfl,
    decodesTo_of_registers (f := fun d r _ _ => .cp d r) (by decide) fun _ _ => rfl, fun s rd rs k => ?_⟩
  rw [← immOperand_eq]
  exact ⟨exec_compare_as_sub (i := .cpi rd k) (j := .subi rd k) rfl rfl s,
    exec_compare_as_sub (i := .cp rd rs) (j := .sub rd rs) rfl rfl s⟩

/-- Settles O23: two loads of the register from itself, shifted by one place. -/
theorem shiftResult : Obligations.ShiftResult := by
  refine ⟨decodesTo_of_registers (f := fun d _ _ _ => .lsl d) (by decide) fun _ _ => rfl,
    decodesTo_of_registers (f := fun d _ _ _ => .lsr d) (by decide) fun _ _ => rfl, fun s rd => ⟨?lsl, ?lsr⟩⟩
  case lsl =>
    obtain ⟨t, ht, hrd, honly⟩ := exec_load (i := .lsl rd) rfl s
    obtain ⟨hval, hbit, hlow⟩ := shiftLeft_one (s.reg rd)
    rw [Source.read] at hrd
    rw [← hrd] at hval hbit hlow
    exact ⟨t, ht, hval, hbit, hlow, honly⟩
  case lsr =>
    obtain ⟨t, ht, hrd, honly⟩ := exec_load (i := .lsr rd) rfl s
    obtain ⟨hval, hbit, htop⟩ := shiftRight_one (s.reg rd)
    rw [Source.read] at hrd
    rw [← hrd] at hval hbit htop
    exact ⟨t, ht, hval, hbit, htop, honly⟩

end Sys2Proof.Machine
end

section
/-! Control transfer (44_control_transfer.md R220 to R231). JMP and the six branches are one effect and differ in the predicate over
S and Z; CALL is a push and a jump, RET a pop into pc, so a stack-balanced subroutine between them is a push undone by a pop. -/

namespace Sys2Proof.Machine

variable {s : State}

/-! ### What a transfer leaves unchanged -/

/-- Only the stack and pc are written, whatever the two become. -/
theorem onlyPcAndStack_setStack_setPc (s : State) (st : Stack) (p : Word) :
    onlyPcAndStack s ((s.setStack st).setPc p) :=
  ⟨fun _ => rfl, rfl, fun _ => rfl, rfl, rfl, rfl, rfl, rfl, rfl, rfl, rfl, rfl, rfl⟩

/-- A branch changes nothing but pc, taken or not (R220). -/
theorem onlyPc_branchIf (s : State) (c : Bool) (x : BitVec 8) : onlyPc s (branchIf c x s) := by
  obtain ⟨_, h⟩ | ⟨_, h⟩ := branchIf_cases s c x <;> rw [h] <;>
    exact ⟨fun _ => rfl, rfl, rfl, fun _ => rfl, rfl, rfl, rfl, rfl, rfl, rfl, rfl, rfl, rfl, rfl⟩

/-! ### JMP and the branches by their predicate -/

section
variable {i j : Instr} {taken other : Bool → Bool → Bool} {x : BitVec 8}

/-- An instruction that comes to a branch completes; pc is the target exactly when its predicate holds, and nothing else changes
(R220). -/
theorem exec_branch {P : Prop} [Decidable P] (hi : Effect.ofInstr i = .branch taken x)
    (hP : taken s.flagS s.flagZ = true ↔ P) :
    ∃ t, exec i s = .next t ∧ t.pc = (if P then BitVec.ofNat 32 x.toNat else s.pc) ∧ onlyPc s t := by
  refine ⟨branchIf (taken s.flagS s.flagZ) x s, ?_, ?_, onlyPc_branchIf s _ x⟩
  · rw [exec_eq_run, hi, Effect.run]
  · rw [branchIf_pc, targetOperand_eq]
    exact if_congr hP rfl rfl

/-- Of two branches with opposite predicates one goes to the target and the other leaves the state as it is (R231). -/
theorem exec_complement (s : State) (hi : Effect.ofInstr i = .branch taken x) (hj : Effect.ofInstr j = .branch other x)
    (hc : ∀ sg z, other sg z = !taken sg z) :
    ∃ t u, exec i s = .next t ∧ exec j s = .next u ∧
      ((t = s ∧ u.pc = BitVec.ofNat 32 x.toNat) ∨ (u = s ∧ t.pc = BitVec.ofNat 32 x.toNat)) := by
  refine ⟨_, _, exec_eq_run i s, exec_eq_run j s, ?_⟩
  rw [hi, hj, Effect.run, Effect.run, hc, ← targetOperand_eq]
  cases taken s.flagS s.flagZ with
  | false => exact .inl ⟨rfl, rfl⟩
  | true => exact .inr ⟨rfl, rfl⟩

end

/-! ### CALL and RET as the stack's push and pop -/

/-- CALL pushes the return address, or loses it on a full stack, and jumps (R228). -/
theorem exec_call (s : State) (x : BitVec 8) :
    ∃ t, exec (.call x) s = .next t ∧ t.pc = BitVec.ofNat 32 x.toNat ∧ pushed s.pc s.stack t.stack ∧
      onlyPcAndStack s t :=
  ⟨_, exec_eq_run (.call x) s, targetOperand_eq x, pushed_push s.stack s.pc, onlyPcAndStack_setStack_setPc s _ _⟩

/-- RET pops into pc (R229). -/
theorem exec_ret (s : State) : ∃ t, exec .ret s = .next t ∧ popped t.pc s.stack t.stack ∧ onlyPcAndStack s t :=
  ⟨_, exec_eq_run .ret s, popped_pop s.stack, onlyPcAndStack_setStack_setPc s _ _⟩

/-- A pop undoes a push that found room, through any stack that agrees with the pushed one in the pointer and from there up: the
cells below the pointer are dead (R77, R78). -/
theorem popped_of_pushed {before deeper live after : Stack} {v w : Word} (hroom : before.sp.val ≠ 0)
    (hpush : pushed v before deeper) (hsp : live.sp = deeper.sp)
    (hlive : ∀ a, live.sp.val ≤ a → Memory.lookup live.cells a = Memory.lookup deeper.cells a)
    (hpop : popped w live after) :
    w = v ∧ after.sp = before.sp ∧
      ∀ a, before.sp.val ≤ a → Memory.lookup after.cells a = Memory.lookup before.cells a := by
  obtain ⟨hdown, htop, hcells⟩ := hpush.2 hroom
  have hle := before.sp_le
  have hat : live.sp.val = before.sp.val - 1 := hsp ▸ hdown
  obtain ⟨hw, hup, hkept⟩ := hpop.2 (by omega)
  refine ⟨?_, Fin.ext (by omega), fun a ha => ?_⟩
  · rw [hw, hlive _ (Nat.le_refl _), hat, htop]
  · rw [hkept, hlive a (by omega), hcells a (by omega)]

/-! ### The statements -/

/-- Settles O28: CALL's push, undone by RET's pop. -/
theorem callThenRetReturns : Obligations.CallThenRetReturns := by
  intro s t u x hroom hcall hsp hlive
  obtain ⟨t', ht', -, hpush, -⟩ := exec_call s x
  cases hcall.symm.trans ht'
  obtain ⟨v, hv, hpop, -⟩ := exec_ret u
  exact ⟨v, hv, popped_of_pushed hroom hpush hsp hlive hpop⟩

/-- Settles O24: one effect with seven predicates, JMP's always true. -/
theorem jumpAndBranchResult : Obligations.JumpAndBranchResult := by
  refine ⟨decodesTo_of (fun _ _ => rfl) (by decide), decodesTo_of (fun _ _ => rfl) (by decide),
    decodesTo_of (fun _ _ => rfl) (by decide), decodesTo_of (fun _ _ => rfl) (by decide),
    decodesTo_of (fun _ _ => rfl) (by decide), decodesTo_of (fun _ _ => rfl) (by decide),
    decodesTo_of (fun _ _ => rfl) (by decide), fun s x => ?_⟩
  have hclear (b : Bool) : (!b) = true ↔ b = false := iff_of_eq (Bool.not_eq_true' b)
  refine ⟨?jmp, exec_branch (i := .breq x) rfl Iff.rfl, exec_branch (i := .brne x) rfl (hclear _),
    exec_branch (i := .brge x) rfl (hclear _), exec_branch (i := .brgt x) rfl ?brgt,
    exec_branch (i := .brle x) rfl Bool.or_eq_true_iff, exec_branch (i := .brlt x) rfl Iff.rfl⟩
  case jmp =>
    obtain ⟨t, ht, hpc, honly⟩ := exec_branch (i := .jmp x) (s := s) rfl (iff_of_true rfl trivial)
    exact ⟨t, ht, hpc.trans (if_pos trivial), honly⟩
  case brgt => rw [Bool.and_eq_true, hclear, hclear]

/-- Settles O25: in each pair the second predicate is the negation of the first. -/
theorem branchPredicatesComplement : Obligations.BranchPredicatesComplement := by
  rintro s x i j (⟨rfl, rfl⟩ | ⟨rfl, rfl⟩ | ⟨rfl, rfl⟩)
  · exact exec_complement (i := .brgt x) (j := .brle x) s rfl rfl (by decide)
  · exact exec_complement (i := .brge x) (j := .brlt x) s rfl rfl (by decide)
  · exact exec_complement (i := .breq x) (j := .brne x) s rfl rfl (by decide)

/-- Settles O26: the pushed word is the old pc. -/
theorem callResult : Obligations.CallResult :=
  ⟨decodesTo_of (fun _ _ => rfl) (by decide), exec_call⟩

/-- Settles O27: the popped word is the new pc. -/
theorem retResult : Obligations.RetResult :=
  ⟨decodesTo_of (fun _ _ => rfl) (by decide), exec_ret⟩

end Sys2Proof.Machine
end

section
/-! Stack and system (45_stack_system.md R240 to R244). PUSH and POP are the stack's push and pop; SEI and CLI write I alone, and
their own boundary step reads it. RETI is said once, by `Restored`, over every stack: its two statements differ only in whether
the 42 pops reach the empty sentinel. -/

namespace Sys2Proof.Machine

variable {s : State}

/-! ### PUSH and POP -/

/-- PUSH leaves everything but the stack (R240). -/
theorem exec_push (s : State) (r : Reg) :
    ∃ t, exec (.push r) s = .next t ∧ pushed (s.reg r) s.stack t.stack ∧ keepsRegs s t ∧ t.sr = s.sr ∧ t.pc = s.pc ∧
      keepsData s t ∧ keepsRest s t := by
  refine ⟨pushWord (s.reg r) s, exec_eq_run (.push r) s, pushed_push s.stack _, pushWord_reg s _, rfl, rfl,
    memRead_pushWord s _, ?_⟩
  simp [keepsRest]

/-- POP leaves everything but the stack and its destination (R241). -/
theorem exec_pop (s : State) (r : Reg) :
    ∃ t, exec (.pop r) s = .next t ∧ popped (t.reg r) s.stack t.stack ∧ keepsRegsBut r s t ∧ t.sr = s.sr ∧ t.pc = s.pc ∧
      keepsData s t ∧ keepsRest s t := by
  refine ⟨(popState s).setReg r (popValue s), exec_eq_run (.pop r) s, ?_, fun _ hne => State.reg_setReg_other _ _ hne,
    rfl, rfl, memRead_popState s, ?_⟩
  · rw [State.reg_setReg_same]
    exact popped_pop s.stack
  · simp [keepsRest]

/-! ### SEI and CLI -/

/-- An instruction that writes I writes no other flag and nothing else (R243, R244). -/
theorem exec_setI {i : Instr} {b : Bool} (hi : Effect.ofInstr i = .setI b) (s : State) :
    ∃ t, exec i s = .next t ∧ t.flagI = b ∧ t.aluFlags = s.aluFlags ∧ keepsRegs s t ∧ t.pc = s.pc ∧ t.stack = s.stack ∧
      keepsData s t ∧ keepsRest s t := by
  have hrest : keepsRest s (setFlagI b s) := by simp [keepsRest]
  refine ⟨setFlagI b s, ?_, setFlagI_flagI s b, setFlagI_aluFlags s b, setFlagI_reg s b, rfl, rfl,
    memRead_setFlagI s b, hrest⟩
  rw [exec_eq_run, hi, Effect.run]

/-! ### The boundary step by its dispatch condition -/

/-- With source n eligible, n or a lower source is selected (R269). -/
theorem exists_selectSource_le {n : Port} (h : eligible s n = true) : ∃ m ≤ n, selectSource s = some m := by
  by_cases h0 : eligible s 0 = true
  · exact ⟨0, Fin.zero_le n, by simp [selectSource, h0]⟩
  by_cases h1 : eligible s 1 = true
  · have hn : n ≠ 0 := fun e => h0 (e ▸ h)
    exact ⟨1, Fin.one_le_of_ne_zero hn, by simp [selectSource, h0, h1]⟩
  · have hn : n = 2 := by
      match n with
      | 0 => exact absurd h h0
      | 1 => exact absurd h h1
      | 2 => rfl
    subst hn
    exact ⟨2, le_rfl, by simp [selectSource, h0, h1, h]⟩

/-- With a source that may be dispatched, the boundary step dispatches it or a lower one (R268, R269). -/
theorem boundary_of_mayDispatch {n : Port} (h : mayDispatch s n = true) :
    ∃ m ≤ n, boundary s = dispatchInterrupt m (detectEdges (samplePins s)) := by
  rw [← eligible_sampled] at h
  obtain ⟨m, hm, hsel⟩ := exists_selectSource_le h
  exact ⟨m, hm, by rw [boundary, hsel]⟩

/-- Behind a write of I, the boundary step's dispatch condition reads the I just written (R243, R244, R268). -/
theorem mayDispatch_setFlagI_fetch (s : State) (b : Bool) (n : Port) :
    mayDispatch ((setFlagI b s).setExecState .fetch) n = (b && (memRead s 9).getLsbD n.val && pendingAfter s n) := by
  have hI : ((setFlagI b s).setExecState .fetch).flagI = b := setFlagI_flagI s b
  rw [mayDispatch, hI]
  rfl

/-! ### RETI -/

/-- The execution state comes back from its two bits, unless they are 3 (R32, R151). -/
theorem ExecState.bits_ofBits {b : BitVec 2} (h : b.toNat ≠ 3) : (ExecState.ofBits b).bits = b := by
  revert b
  decide

/-- A write of I leaves the five bits below it (R26). -/
theorem setFlagI_sr_below (s : State) (b : Bool) {k : Nat} (h : k < 5) :
    (setFlagI b s).sr.getLsbD k = s.sr.getLsbD k := by
  match k with
  | 0 => exact setFlagI_flagC s b
  | 1 => exact setFlagI_flagV s b
  | 2 => exact setFlagI_flagZ s b
  | 3 => exact setFlagI_flagN s b
  | 4 => exact setFlagI_flagS s b

/-- A status register with I set and nothing below it. -/
theorem sr_eq_of_only_I {v : BitVec 6} (hI : v.getLsbD 5 = true) (hlow : ∀ k, k < 5 → v.getLsbD k = false) :
    v = 0x20#6 := by
  revert v
  decide

/-- `t` is `s` behind a RETI: each of the 42 items is the word of its pop, cut to its width, I is set, the pointer has moved up by
42 or to the empty sentinel, and the rest is as it was (R242, R275). -/
structure Restored (s t : State) : Prop where
  pc : t.pc = wordAbove 41 s.stack
  ir : t.ir = wordAbove 40 s.stack
  flagI : t.flagI = true
  sr : ∀ k, k < 5 → t.sr.getLsbD k = (wordAbove 39 s.stack).getLsbD k
  opc : t.opc.toNat = (wordAbove 38 s.stack).toNat % 2 ^ 8
  op1 : t.op1.toNat = (wordAbove 37 s.stack).toNat % 2 ^ 8
  op2 : t.op2.toNat = (wordAbove 36 s.stack).toNat % 2 ^ 16
  execState : (wordAbove 35 s.stack).toNat % 4 ≠ 3 → t.execState.bits.toNat = (wordAbove 35 s.stack).toNat % 4
  prev : ∀ k : Port, t.prev.get k = wordAbove (34 - k.val) s.stack
  reg : ∀ r : Reg, t.reg r = wordAbove (31 - r.val) s.stack
  sp : t.stack.sp.val = min (s.stack.sp.val + 42) 1024
  kept : t.stack.cells = s.stack.cells ∧ keepsData s t ∧ t.lfa = s.lfa ∧ t.pm = s.pm ∧ t.pinIn = s.pinIn ∧
    t.inputs = s.inputs

/-- The restored STATE is the two low bits of its context word, unless these are 3 (R275, log 11). -/
theorem restoreContext_execState_bits (s : State) (h : (wordAbove 35 s.stack).toNat % 4 ≠ 3) :
    (restoreContext s).execState.bits.toNat = (wordAbove 35 s.stack).toNat % 4 := by
  have hlow : ((wordAbove 35 s.stack).setWidth 2).toNat = (wordAbove 35 s.stack).toNat % 4 := BitVec.toNat_setWidth _ _
  rw [restoreContext_execState, contextWord_popped s (by decide), ExecState.bits_ofBits (by rwa [hlow]), hlow]

/-- Each item of the context word that R271 gives it; the frame by the restore's own lemmas. -/
theorem restored_reti (s : State) : Restored s (setFlagI true (restoreContext s)) where
  pc := by rw [setFlagI_pc, restoreContext_pc, contextWord_popped s (by decide)]
  ir := by rw [setFlagI_ir, restoreContext_ir, contextWord_popped s (by decide)]
  flagI := setFlagI_flagI _ true
  sr k hk := by
    have hin : k < 6 := by omega
    rw [setFlagI_sr_below _ _ hk, restoreContext_sr, contextWord_popped s (by decide), BitVec.getLsbD_setWidth]
    simp [hin]
  opc := by rw [setFlagI_opc, restoreContext_opc, contextWord_popped s (by decide), BitVec.toNat_setWidth]
  op1 := by rw [setFlagI_op1, restoreContext_op1, contextWord_popped s (by decide), BitVec.toNat_setWidth]
  op2 := by rw [setFlagI_op2, restoreContext_op2, contextWord_popped s (by decide), BitVec.toNat_setWidth]
  execState h := by rw [setFlagI_execState, restoreContext_execState_bits s h]
  prev k := by
    have hplace : 41 - (7 + k.val) = 34 - k.val := by omega
    rw [setFlagI_prev, restoreContext_prev, contextWord_popped s (by omega), hplace]
  reg r := by
    have hplace : 41 - (10 + r.val) = 31 - r.val := by omega
    rw [setFlagI_reg, restoreContext_reg, contextWord_popped s (by omega), hplace]
  sp := by rw [setFlagI_stack, restoreContext_stack, Stack.popMany_sp]
  kept := by
    have hdm : (setFlagI true (restoreContext s)).dm = s.dm := by simp
    exact ⟨by simp, memRead_congr hdm, by simp⟩

/-- RETI completes on every stack (R242). -/
theorem exec_reti (s : State) : ∃ t, exec .reti s = .next t ∧ Restored s t :=
  ⟨_, exec_eq_run .reti s, restored_reti s⟩

theorem wordAbove_inside {k : Nat} {st : Stack} (h : st.sp.val + k < 1024) :
    wordAbove k st = Memory.lookup st.cells (st.sp.val + k) := if_pos h

theorem wordAbove_beyond {k : Nat} {st : Stack} (h : 1024 ≤ st.sp.val + k) : wordAbove k st = 0#32 :=
  if_neg (Nat.not_lt.2 h)

/-- On an empty stack every item RETI restores is 0, and SR is I alone (R242 corner case 4). -/
theorem Restored.of_empty {t : State} (h : Restored s t) (hempty : s.stack.sp.val = 1024) :
    (∀ r : Reg, t.reg r = 0#32) ∧ (∀ k : Port, t.prev.get k = 0#32) ∧ t.ir = 0#32 ∧ t.opc = 0#8 ∧ t.op1 = 0#8 ∧
      t.op2 = 0#16 ∧ t.execState = .fetch ∧ t.sr = 0x20#6 := by
  have hzero (k : Nat) : wordAbove k s.stack = 0#32 := wordAbove_beyond (by omega)
  have hbits := h.execState
  rw [hzero] at hbits
  have hstate : t.execState.bits = 0#2 := BitVec.eq_of_toNat_eq (hbits (by decide))
  refine ⟨fun r => (h.reg r).trans (hzero _), fun k => (h.prev k).trans (hzero _), h.ir.trans (hzero _),
    BitVec.eq_of_toNat_eq ?opc, BitVec.eq_of_toNat_eq ?op1, BitVec.eq_of_toNat_eq ?op2, ?state,
    sr_eq_of_only_I h.flagI fun k hk => ?sr⟩
  case opc => rw [h.opc, hzero]; rfl
  case op1 => rw [h.op1, hzero]; rfl
  case op2 => rw [h.op2, hzero]; rfl
  case state => rw [← ExecState.ofBits_bits t.execState, hstate]; rfl
  case sr => rw [h.sr k hk, hzero, BitVec.getLsbD_zero]

/-! ### The statements -/

/-- Settles O31: behind SEI the source meets the dispatch condition; behind CLI none does, and the boundary step is pin sample and
edge detection. -/
theorem seiCliActAtOwnBoundary : Obligations.SeiCliActAtOwnBoundary := by
  intro s
  refine ⟨⟨setFlagI true s, exec_eq_run .sei s, fun n hn hpend => ?sei⟩, ⟨setFlagI false s, exec_eq_run .cli s, ?cli⟩⟩
  case sei =>
    have hmay : mayDispatch ((setFlagI true s).setExecState .fetch) n = true := by
      rw [mayDispatch_setFlagI_fetch, hn, hpend]
      rfl
    obtain ⟨m, hm, hb⟩ := boundary_of_mayDispatch hmay
    exact ⟨m, hm, by rw [hb, dispatchInterrupt_pc, ivec]⟩
  case cli =>
    have hnone (n : Port) : mayDispatch ((setFlagI false s).setExecState .fetch) n = false :=
      mayDispatch_setFlagI_fetch s false n
    rw [boundary_of_none _ hnone]
    exact ⟨by simp, by simp, fun n hpend => (sampled_pending _ n).trans hpend⟩

/-- Settles O32: with 42 words on the stack each pop answers its cell. -/
theorem retiRestoresContext : Obligations.RetiRestoresContext := by
  refine ⟨decodesTo_of (fun _ _ => rfl) (by decide), fun s hdeep => ?_⟩
  obtain ⟨t, ht, h⟩ := exec_reti s
  have hcell {k : Nat} (hk : k < 42) : wordAbove k s.stack = Memory.lookup s.stack.cells (s.stack.sp.val + k) :=
    wordAbove_inside (by omega)
  have hstate := h.execState
  have hprev (k : Port) : t.prev.get k = Memory.lookup s.stack.cells (s.stack.sp.val + 34 - k.val) := by
    rw [h.prev, hcell (by omega), ← Nat.add_sub_assoc (by omega)]
  have hreg (r : Reg) : t.reg r = Memory.lookup s.stack.cells (s.stack.sp.val + 31 - r.val) := by
    rw [h.reg, hcell (by omega), ← Nat.add_sub_assoc (by omega)]
  rw [hcell (by decide)] at hstate
  exact ⟨t, ht, h.pc.trans (hcell (by decide)), h.ir.trans (hcell (by decide)), h.flagI,
    fun k hk => by rw [h.sr k hk, hcell (by decide)], by rw [h.opc, hcell (by decide)],
    by rw [h.op1, hcell (by decide)], by rw [h.op2, hcell (by decide)], hstate, hprev, hreg,
    h.sp.trans (Nat.min_eq_left hdeep), h.kept⟩

/-- Settles O33: with fewer words the last pop, pc's, finds the stack empty. -/
theorem retiShortStack : Obligations.RetiShortStack := by
  intro s hshort
  obtain ⟨t, ht, h⟩ := exec_reti s
  have hpc : t.pc = 0#32 := h.pc.trans (wordAbove_beyond (by omega))
  exact ⟨t, ht, hpc, h.pc, h.ir, h.flagI, h.sr, h.opc, h.op1, h.op2, h.execState, h.prev, h.reg, h.of_empty,
    h.sp.trans (Nat.min_eq_right (by omega)), h.kept⟩

/-- Settles O29: the two instructions are the stack's push and pop. -/
theorem pushPopResult : Obligations.PushPopResult :=
  ⟨decodesTo_of_registers (f := fun r _ _ _ => .push r) (by decide) fun _ _ => rfl,
    decodesTo_of_registers (f := fun d _ _ _ => .pop d) (by decide) fun _ _ => rfl,
    fun s r => ⟨exec_push s r, exec_pop s r⟩⟩

/-- Settles O30: the two instructions are one write of I. -/
theorem seiCliResult : Obligations.SeiCliResult :=
  ⟨decodesTo_of (fun _ _ => rfl) (by decide), decodesTo_of (fun _ _ => rfl) (by decide),
    fun s => ⟨exec_setI (i := .sei) rfl s, exec_setI (i := .cli) rfl s⟩⟩

end Sys2Proof.Machine
end

section
/-! Safety and the decode error (60_exceptions.md R260, R261): every step answers a next state, and the only fatal condition is a
reset in the EXECUTE tick. -/

namespace Sys2Proof.Machine

variable {s u : State}

/-- A run goes on from the next state of its first step. -/
theorem run_succ (h : step s = .next u) (k : Nat) : Sys2Proof.core.run (k + 1) s = Sys2Proof.core.run k u := by
  have hcore : Sys2Proof.core.step s = .next u := h
  simp only [Host.Core.run, hcore]

theorem tick_execute (he : s.execState = .execute) : tick s = executeTick s := by
  simp only [tick, he]

/-- A step that fetches a word with an unrecognised opcode is a reset in its EXECUTE tick, with no boundary step (R157, R260). -/
theorem step_of_decode_error {e : DecodeError} (hs : s.execState = .fetch) (hr : noRst 3 s)
    (hd : decode (pmRead s s.pc) = .error e) : step s = .next (resetMachine (atExecute s)) := by
  rw [step_of_fetch hs hr, executeTick_of_error ((decodeFields_atExecute s).trans hd)]

/-! ### The statements -/

/-- Settles O40, by induction on the number of steps: each answers a next state. -/
theorem everyRunIsSafe : Obligations.EveryRunIsSafe := by
  intro k
  induction k with
  | zero => exact fun s => ⟨s, rfl⟩
  | succ k ih =>
    intro s
    obtain ⟨u, hu, _⟩ := stepEndsInFetch s
    obtain ⟨t, ht⟩ := ih u
    exact ⟨t, (run_succ hu k).trans ht⟩

/-- Settles O47: neither the opcode in the latch nor the word fetched decodes, and the fields are those of O48. -/
theorem decodeErrorIsFullReset : Obligations.DecodeErrorIsFullReset := by
  refine ⟨fun s he hopc => ?_, fun s hs hr hw => ?_⟩
  · rw [tick_execute he, executeTick_of_error (decodeFields_of_gt hopc _ _)]
  · obtain ⟨hreg, hpc, hsr, hir, hopc, hop1, hop2, hstate, hprev, hlfa, hdata, hsp, _, hpm⟩ :=
      resetValues (atExecute s) _ (.inl rfl)
    exact ⟨_, step_of_decode_error hs hr (decode_of_ge hw), rfl, hreg, hpc, hsr, hir, hopc, hop1, hop2, hstate, hprev, hlfa,
      hdata, hsp, hpm rfl⟩

end Sys2Proof.Machine
end

section
/-! Interrupts (60_exceptions.md R264 to R277). A dispatch is said once, by where each context word lands and what IFR loses; the
boundary step is a dispatch from the sampled state, and RETI reads the words back from where they landed. -/

namespace Sys2Proof.Machine

variable (s : State) (n : Port)

/-! ### The dispatch -/

/-- Context word j lands `j + 1` below the old pointer, if there is room for it (R271, R273). -/
theorem dispatchInterrupt_word {j : Nat} (hj : j < 42) (hroom : j < s.stack.sp.val) :
    Memory.lookup (dispatchInterrupt n s).stack.cells (s.stack.sp.val - 1 - j) = (contextWords s).getD j 0#32 := by
  have hplace : s.stack.sp.val - 1 - (s.stack.sp.val - 1 - j) = j := by omega
  rw [dispatchInterrupt_lookup, hplace, if_pos ⟨by omega, hj⟩]

/-- A cell at or above the old pointer, or below the 42 context cells, keeps its word (R77). -/
theorem dispatchInterrupt_lookup_outside {a : Nat} (h : s.stack.sp.val ≤ a ∨ a + 42 < s.stack.sp.val) :
    Memory.lookup (dispatchInterrupt n s).stack.cells a = Memory.lookup s.stack.cells a := by
  rw [dispatchInterrupt_lookup, if_neg (by omega)]

/-- A dispatch clears its source's bit of IFR and no other (R270 step 1). -/
theorem dispatchInterrupt_ifr (k : Nat) :
    (memRead (dispatchInterrupt n s) 10).getLsbD k = ((memRead s 10).getLsbD k && k != n.val) := by
  rw [memRead_dispatchInterrupt, if_pos rfl, BitVec.getLsbD_and, BitVec.getLsbD_not, sourceBit_getLsbD]
  by_cases hk : k < 32
  · simp [hk, bne, beq_eq_decide]
  · simp [BitVec.getLsbD_of_ge (memRead s 10) k (by omega)]

theorem keepsDataBut_dispatchInterrupt : keepsDataBut 10 s (dispatchInterrupt n s) := by
  intro a ha
  rw [memRead_dispatchInterrupt, if_neg ha]

/-- The saved word of a register narrower than a word holds the register's value (R271). -/
theorem dispatchInterrupt_field {w j : Nat} {x : BitVec w} (hw : w ≤ 32) (hj : j < 42)
    (hx : (contextWords s).getD j 0#32 = x.setWidth 32) (hroom : j < s.stack.sp.val) :
    (Memory.lookup (dispatchInterrupt n s).stack.cells (s.stack.sp.val - 1 - j)).toNat = x.toNat := by
  rw [dispatchInterrupt_word s n hj hroom, hx, BitVec.toNat_setWidth_of_le hw]

/-- Whatever the room, a dispatch saves the context as R271 orders it, as far as it goes (R270, R271, R273). -/
theorem contextPushed_dispatchInterrupt : contextPushed s s.prev (dispatchInterrupt n s).stack := by
  have word {j : Nat} (hj : j < 42) (hroom : j < s.stack.sp.val) := dispatchInterrupt_word s n hj hroom
  have field {w j : Nat} {x : BitVec w} (hw : w ≤ 32) (hj : j < 42) (hx : (contextWords s).getD j 0#32 = x.setWidth 32) :=
    dispatchInterrupt_field s n hw hj hx
  refine ⟨dispatchInterrupt_sp s n, word (by decide), word (by decide), field (x := s.sr) (by decide) (by decide) rfl,
    field (x := s.opc) (by decide) (by decide) rfl, field (x := s.op1) (by decide) (by decide) rfl,
    field (x := s.op2) (by decide) (by decide) rfl, field (x := s.execState.bits) (by decide) (by decide) rfl,
    fun k h => ?prev, fun r h => ?reg, fun a => dispatchInterrupt_lookup_outside s n⟩
  case prev =>
    have hplace : s.stack.sp.val - 8 - k.val = s.stack.sp.val - 1 - (7 + k.val) := by omega
    rw [hplace, word (by omega) h, contextWords_prev]
  case reg =>
    have hplace : s.stack.sp.val - 11 - r.val = s.stack.sp.val - 1 - (10 + r.val) := by omega
    rw [hplace, word (by omega) h, contextWords_reg]

/-! ### The boundary step -/

/-- The source selected is the eligible one that has no eligible source below it (R269). -/
theorem selectSource_eq_some {s : State} {n : Port} (h : eligible s n = true) (hlow : ∀ m < n, eligible s m = false) :
    selectSource s = some n := by
  match n with
  | 0 => simp [selectSource, h]
  | 1 => simp [selectSource, h, hlow 0 (by decide)]
  | 2 => simp [selectSource, h, hlow 0 (by decide), hlow 1 (by decide)]

theorem flagI_of_mayDispatch {s : State} {n : Port} (h : mayDispatch s n = true) : s.flagI = true := by
  rw [mayDispatch, Bool.and_eq_true, Bool.and_eq_true] at h
  obtain ⟨⟨hI, _⟩, _⟩ := h
  exact hI

/-- The boundary step dispatches the lowest source that may be dispatched (R268, R269). -/
theorem boundary_of_lowest {s : State} {n : Port} (h : mayDispatch s n = true) (hlow : ∀ m < n, mayDispatch s m = false) :
    boundary s = dispatchInterrupt n (detectEdges (samplePins s)) := by
  simp only [← eligible_sampled] at h hlow
  rw [boundary, selectSource_eq_some h hlow]

/-- Equal entries port by port are an equal edge history. -/
theorem prev_ext {v w : Vector Word 3} (h : ∀ k : Port, v.get k = w.get k) : v = w := by
  refine Vector.ext fun k hk => ?_
  simpa [Vector.get_eq_getElem] using h ⟨k, hk⟩

/-- Sample and detection leave in PREV the levels at the pins (R265, R266). -/
theorem sampled_prev : (detectEdges (samplePins s)).prev = s.pinIn :=
  prev_ext fun k => (detectEdges_prev (samplePins s) k).trans (memRead_samplePins_pin s k)

/-- PREV behind a boundary step is the levels at the pins, dispatch or not (R266). -/
theorem boundary_prev : (boundary s).prev = s.pinIn := by
  rcases boundary_cases s with ⟨_, h⟩ | ⟨n, _, h⟩
  · rw [h, sampled_prev]
  · rw [h, dispatchInterrupt_prev, sampled_prev]

/-- Outside IFR a boundary step does to data memory what the pin sample does, dispatch or not (R265, R270). -/
theorem memRead_boundary_other {a : Nat} (ha : a ≠ 10) : memRead (boundary s) a = memRead (samplePins s) a := by
  rcases boundary_cases s with ⟨_, h⟩ | ⟨n, _, h⟩
  · rw [h, memRead_detectEdges_other _ ha]
  · rw [h, keepsDataBut_dispatchInterrupt _ n a ha, memRead_detectEdges_other _ ha]

/-- A dispatch at a boundary saves the context of the state before it, but for PREV, which is the new sample (R264, R271). -/
theorem contextPushed_boundary {s : State} {n : Port} (h : boundary s = dispatchInterrupt n (detectEdges (samplePins s))) :
    contextPushed s s.pinIn (boundary s).stack := by
  rw [h]
  simpa [contextPushed, sampled_prev] using contextPushed_dispatchInterrupt (detectEdges (samplePins s)) n

/-! ### RETI behind a dispatch -/

/-- The bits of STATE are never 3 (R32). -/
theorem ExecState.bits_toNat_lt (e : ExecState) : e.bits.toNat < 3 := by
  cases e <;> decide

theorem ExecState.bits_inj {e f : ExecState} (h : e.bits.toNat = f.bits.toNat) : e = f := by
  rw [← ExecState.ofBits_bits e, ← ExecState.ofBits_bits f, BitVec.eq_of_toNat_eq h]

/-- A status register is its flag I and the five bits below. -/
theorem sr_eq_of_bits {v w : BitVec 6} (hI : v.getLsbD 5 = w.getLsbD 5) (hlow : ∀ k, k < 5 → v.getLsbD k = w.getLsbD k) :
    v = w := by
  refine BitVec.eq_of_getLsbD_eq fun k hk => ?_
  by_cases h5 : k = 5
  · rw [h5, hI]
  · exact hlow k (by omega)

variable {s n} {u t : State}

/-- `u` is at its RETI as a stack-balanced handler of the dispatch leaves it: the pointer is where the dispatch put it, and the
cells from there up are untouched (R276). -/
def AtReti (s : State) (n : Port) (u : State) : Prop :=
  u.stack.sp = (dispatchInterrupt n s).stack.sp ∧
    ∀ a, u.stack.sp.val ≤ a → Memory.lookup u.stack.cells a = Memory.lookup (dispatchInterrupt n s).stack.cells a

/-- With room for the whole context, the word `41 - j` places above the handler's pointer is context word `j` (R271). -/
theorem AtReti.word (h : AtReti s n u) (hroom : 42 ≤ s.stack.sp.val) {j k : Nat} (hjk : j + k = 41) :
    wordAbove k u.stack = (contextWords s).getD j 0#32 := by
  obtain ⟨hsp, hcells⟩ := h
  have hle := s.stack.sp_le
  have hval : u.stack.sp.val = s.stack.sp.val - 42 := by rw [hsp, dispatchInterrupt_sp]
  have hplace : u.stack.sp.val + k = s.stack.sp.val - 1 - j := by omega
  rw [wordAbove_inside (by omega), hcells _ (by omega), hplace, dispatchInterrupt_word s n (by omega) (by omega)]

/-- Cut to its width, the word of a register narrower than a word gives the register's value back (R275, D33). -/
theorem AtReti.field (h : AtReti s n u) (hroom : 42 ≤ s.stack.sp.val) {w j k : Nat} {x : BitVec w} (hw : w ≤ 32)
    (hjk : j + k = 41) (hx : (contextWords s).getD j 0#32 = x.setWidth 32) :
    (wordAbove k u.stack).toNat % 2 ^ w = x.toNat := by
  rw [h.word hroom hjk, hx, BitVec.toNat_setWidth_of_le hw, Nat.mod_eq_of_lt x.isLt]

/-- From the dispatch's context cells RETI restores the state the dispatch was taken in (R275, R276). -/
theorem Restored.of_atReti (ht : Restored u t) (h : AtReti s n u) (hroom : 42 ≤ s.stack.sp.val) (hI : s.flagI = true) :
    t.pc = s.pc ∧ keepsRegs s t ∧ t.sr = s.sr ∧ t.ir = s.ir ∧ t.opc = s.opc ∧ t.op1 = s.op1 ∧ t.op2 = s.op2 ∧
      t.execState = s.execState ∧ t.prev = s.prev := by
  have hsr : wordAbove 39 u.stack = s.sr.setWidth 32 := h.word hroom (j := 2) rfl
  have hopc : t.opc.toNat = s.opc.toNat := ht.opc.trans (h.field hroom (j := 3) (by decide) rfl rfl)
  have hop1 : t.op1.toNat = s.op1.toNat := ht.op1.trans (h.field hroom (j := 4) (by decide) rfl rfl)
  have hop2 : t.op2.toNat = s.op2.toNat := ht.op2.trans (h.field hroom (j := 5) (by decide) rfl rfl)
  have hstate : (wordAbove 35 u.stack).toNat % 4 = s.execState.bits.toNat :=
    h.field hroom (j := 6) (x := s.execState.bits) (by decide) rfl rfl
  refine ⟨ht.pc.trans (h.word hroom (j := 0) rfl), fun r => ?reg, sr_eq_of_bits (ht.flagI.trans hI.symm) fun k hk => ?sr,
    ht.ir.trans (h.word hroom (j := 1) rfl), BitVec.eq_of_toNat_eq hopc, BitVec.eq_of_toNat_eq hop1,
    BitVec.eq_of_toNat_eq hop2, ExecState.bits_inj ?state, prev_ext fun k => ?prev⟩
  case reg => rw [ht.reg, h.word hroom (j := 10 + r.val) (by omega), contextWords_reg]
  case sr =>
    have hin : k < 32 := by omega
    rw [ht.sr k hk, hsr, BitVec.getLsbD_setWidth, decide_eq_true hin, Bool.true_and]
  case state =>
    have hlt := s.execState.bits_toNat_lt
    rw [ht.execState (by omega), hstate]
  case prev => rw [ht.prev, h.word hroom (j := 7 + k.val) (by omega), contextWords_prev]

/-! ### The statements -/

/-- Settles O53: with 42 free cells no context word finds the stack full. -/
theorem dispatchSavesContext : Obligations.DispatchSavesContext := by
  rintro s _ n rfl hroom
  obtain ⟨hsp, hpc, hir, hsr, hopc, hop1, hop2, hstate, hprev, hreg, hother⟩ := contextPushed_dispatchInterrupt s n
  have hrest : keepsRest s (dispatchInterrupt n s) := by simp [keepsRest]
  exact ⟨hsp, hpc (by omega), hir (by omega), hsr (by omega), hopc (by omega), hop1 (by omega), hop2 (by omega),
    hstate (by omega), fun k => hprev k (by omega), fun r => hreg r (by omega), fun a ha => hother a (by omega),
    dispatchInterrupt_ifr s n, keepsDataBut_dispatchInterrupt s n, dispatchInterrupt_reg s n, dispatchInterrupt_flagI s n,
    dispatchInterrupt_aluFlags s n, dispatchInterrupt_pc s n, hrest⟩

/-- Settles O54: each word that has a cell below the old pointer is in it. -/
theorem dispatchDropsWhatFindsNoRoom : Obligations.DispatchDropsWhatFindsNoRoom := by
  rintro s _ n rfl hshort
  refine ⟨?sp, fun j hj => dispatchInterrupt_word s n (by omega) hj,
    fun a ha => dispatchInterrupt_lookup_outside s n (.inl ha), dispatchInterrupt_flagI s n, dispatchInterrupt_pc s n, ?ifr,
    dispatchInterrupt_reg s n⟩
  case sp => rw [dispatchInterrupt_sp]; omega
  case ifr => rw [dispatchInterrupt_ifr, bne_self_eq_false, Bool.and_false]

/-- Settles O51: dispatch or not, only the pin sample and IFR touch data memory; without one the boundary step is sample and
detection. -/
theorem boundarySamplesAndDetects : Obligations.BoundarySamplesAndDetects := by
  intro s
  refine ⟨fun n => ⟨?pin, by rw [boundary_prev]⟩, fun a h2 h5 h8 h10 => ?cell, fun k hk => boundary_ifr_high s hk,
    boundary_reg s, boundary_aluFlags s, boundary_ir s, boundary_opc s, boundary_op1 s, boundary_op2 s, boundary_execState s,
    boundary_lfa s, boundary_pm s, boundary_pinIn s, boundary_inputs s, fun hnone => ?undispatched⟩
  case pin => exact (memRead_boundary_other s (pinAddr_ne_ifr n)).trans (memRead_samplePins_pin s n)
  case cell => rw [memRead_boundary_other s h10, memRead_samplePins_other s h2 h5 h8]
  case undispatched =>
    rw [boundary_of_none s hnone]
    exact ⟨sampled_pending s, by simp, by simp, by simp⟩

/-- Settles O52: the dispatch is that of the sampled and detected state, whose saved context is `s`'s but for PREV. -/
theorem boundaryDispatchesLowestEligible : Obligations.BoundaryDispatchesLowestEligible := by
  intro s n hn hlow
  have hb := boundary_of_lowest hn hlow
  have hctx := contextPushed_boundary hb
  refine ⟨hb, ?pc, ?flagI, hctx, fun hroom => ?savedI, ?cleared, fun m hm => ?pending⟩
  case pc => rw [hb, dispatchInterrupt_pc, ivec]
  case flagI => rw [hb, dispatchInterrupt_flagI]
  case savedI =>
    obtain ⟨_, _, _, hsr, _⟩ := hctx
    rw [← BitVec.testBit_toNat, hsr hroom, BitVec.testBit_toNat]
    exact flagI_of_mayDispatch hn
  case cleared => rw [hb, dispatchInterrupt_ifr, bne_self_eq_false, Bool.and_false]
  case pending =>
    have hne : (m.val != n.val) = true := bne_iff_ne.2 fun h => hm (Fin.ext h)
    rw [hb, dispatchInterrupt_ifr, sampled_pending, hne, Bool.and_true]

/-- Settles O55: the handler is at its RETI with the context as the dispatch left it. -/
theorem contextSymmetry : Obligations.ContextSymmetry := by
  intro s u n hhead hI hsp hcells
  have hroom : 42 ≤ s.stack.sp.val := of_decide_eq_true hhead
  have hat : AtReti s n u := ⟨hsp, hcells⟩
  obtain ⟨t, hexec, ht⟩ := exec_reti u
  obtain ⟨hpc, hregs, hsr, hir, hopc, hop1, hop2, hstate, hprev⟩ := ht.of_atReti hat hroom hI
  obtain ⟨hkept, hdata, _⟩ := ht.kept
  have hval : u.stack.sp.val = s.stack.sp.val - 42 := by rw [hsp, dispatchInterrupt_sp]
  refine ⟨t, hexec, hpc, hregs, hsr, hir, hopc, hop1, hop2, hstate, hprev, Fin.ext ?sp, fun a ha => ?cell, hdata⟩
  case sp =>
    have := s.stack.sp_le
    rw [ht.sp]
    omega
  case cell => rw [hkept, hcells a (by omega), dispatchInterrupt_lookup_outside s n (.inl ha)]

/-- Settles O56: RETI sets I and leaves ICR and IFR, so its own boundary step finds the source eligible. -/
theorem retiDispatchesPendingAtOnce : Obligations.RetiDispatchesPendingAtOnce := by
  intro s n hicr hifr
  obtain ⟨t, hexec, ht⟩ := exec_reti s
  obtain ⟨_, hdata, _⟩ := ht.kept
  have hmay : mayDispatch (t.setExecState .fetch) n = true := by
    have hI : (t.setExecState .fetch).flagI = true := ht.flagI
    simp only [mayDispatch, pendingAfter, hI, memRead_setExecState, hdata 9, hdata 10, hicr, hifr, Bool.true_or, Bool.and_self]
  obtain ⟨m, hm, hb⟩ := boundary_of_mayDispatch hmay
  refine ⟨t, hexec, ⟨m, hm, by rw [hb, dispatchInterrupt_pc, ivec]⟩, fun hroom => ?saved⟩
  obtain ⟨_, hpc, _⟩ := contextPushed_boundary hb
  exact hpc (Nat.pos_of_ne_zero hroom)

end Sys2Proof.Machine
end
